-- ==== Sys2Proof/Word.lean ====
section
/-! DEFINITION. The widths of the block (00_scope.md R8, R10; 20_memory.md R60). Every value is unsigned. -/

namespace Sys2Proof

/-- `ZCHAR_W`: a Z-char, 5 bits, 0 to 31 (30_encoding.md R70). -/
abbrev Zchar := BitVec 5

/-- `ZSCII_W`, `ALPHA_ENTRY_W`: a ZSCII codepoint, 10 bits, 0 to 1023. -/
abbrev Zscii := BitVec 10

/-- An element of an encoder input port of `width` bits (`ZSCII_IN_W`, 00_scope.md R8; log 5). -/
abbrev ZsciiIn (width : Nat) := BitVec width

/-- `BYTE_W`: a byte of a packed string. -/
abbrev Byte := BitVec 8

/-- `WORD_W`: a packed word (30_encoding.md R74). -/
abbrev PackedWord := BitVec 16

/-- One lane of an input or output buffer: the value of an element of any type of 20_memory.md R51 and R52.
The encoder's input may have any width (00_scope.md R8), so a lane is a number and a port takes the bits it
has. DESIGN CHOICE, log 3. -/
abbrev Elem := Nat

/-- A Z-char in a lane. -/
abbrev Elem.ofZchar (z : Zchar) : Elem := z.toNat

/-- A ZSCII codepoint in a lane. -/
abbrev Elem.ofZscii (c : Zscii) : Elem := c.toNat

/-- A byte in a lane. -/
abbrev Elem.ofByte (b : Byte) : Elem := b.toNat

/-- The 5-bit Z-char port's view of a lane (30_encoding.md R70). -/
abbrev Elem.toZchar (e : Elem) : Zchar := BitVec.ofNat 5 e

/-- The 10-bit alphabet-entry port's view of a lane (20_memory.md R51). -/
abbrev Elem.toZscii (e : Elem) : Zscii := BitVec.ofNat 10 e

/-- The byte port's view of a lane (20_memory.md R51). -/
abbrev Elem.toByte (e : Elem) : Byte := BitVec.ofNat 8 e

end Sys2Proof
end

