-- ==== Sys2Proof/Config.lean ====
section
/-! DEFINITION. The block's constants (00_scope.md R8), the one value the spec leaves open, and the shapes of the
block's tables. What an implementation chooses is in Sys2Proof/Machine/Params.lean. -/

namespace Sys2Proof

/-- `SUPPORTED_VERSION` (00_scope.md R8). -/
def supportedVersion : Nat := 5

/-- `ALPHA_N`: entries of the alphabet table. -/
abbrev alphaN : Nat := 78

/-- `ALPHA_SLOTS`: slots of one shift alphabet. -/
def alphaSlots : Nat := 26

/-- `ESC_SLOT`: absolute index of A2 slot 0, the reserved escape marker. -/
def escSlot : Nat := 52

/-- `PAD_ZCHAR`: the padding Z-char, which is also the shift to A2. -/
def padZchar : Zchar := 5

/-- The ZSCII codepoint of space (00_scope.md R9). -/
def zsciiSpace : Zscii := 0x020

/-- `ALPHA[0..77]`: entry `26*k + j` is slot `j` of shift alphabet `Ak` (10_state.md R30). -/
abbrev AlphabetTable := Vector Zscii alphaN

/-- A shortcut: the one or two Z-chars a ZSCII codepoint is encoded by (10_state.md R33). -/
inductive Shortcut where
  | one (z : Zchar)
  | two (shift z : Zchar)
  deriving DecidableEq, Repr

/-- `SC`, the shortcut map, as data: its (codepoint, shortcut) pairs in strictly rising order of
codepoint. A codepoint that is not listed maps to `none` (10_state.md R33; log 9). -/
abbrev ShortcutMap := List (Zscii × Shortcut)

/-- The width of the encoder's input port where an implementation does not say otherwise (00_scope.md R8). -/
def defaultZsciiInW : Nat := 16

/-- What `ERR_VALUE` holds of an out-of-range input element that needs more than its 16 bits, which only a
port wider than 16 bits can present: the spec does not say (10_state.md R36). A free value; log 5. -/
opaque wideErrValue : Nat → BitVec 16

end Sys2Proof
end

