-- ==== Sys2Proof/Machine/Operands.lean ====
section
/-! DEFINITION. Operand and field assembly: how the block's words are put together from their fields and
taken apart (30_encoding.md sections 1, 2, 5 and 6; 20_memory.md R54). -/

namespace Sys2Proof.Machine

/-! ### The decode key and the unpack key -/

/-- `KEY = PHASE[1:0] : ALPH[1:0] : z[4:0]` (30_encoding.md R71). -/
def zcharKey (phase alph : BitVec 2) (z : Zchar) : BitVec 9 := phase ++ alph ++ z

/-- Bits 8:7 of a decode key. -/
def keyPhase (k : BitVec 9) : BitVec 2 := k.extractLsb' 7 2

/-- Bits 6:5 of a decode key. -/
def keyAlph (k : BitVec 9) : BitVec 2 := k.extractLsb' 5 2

/-- Bits 4:0 of a decode key. -/
def keyZchar (k : BitVec 9) : Zchar := k.extractLsb' 0 5

/-- `UKEY = TERM_SEEN : word[15:0]` (30_encoding.md R75). -/
def unpackKey (termSeen : Bool) (word : PackedWord) : BitVec 17 := BitVec.ofBool termSeen ++ word

/-- Bit 16 of an unpack key. -/
def unpackKeyTermSeen (k : BitVec 17) : Bool := k.getLsbD 16

/-- Bits 15:0 of an unpack key. -/
def unpackKeyWord (k : BitVec 17) : PackedWord := k.setWidth 16

/-! ### The packed word and its bytes -/

/-- A packed word: the end-of-string marker and three Z-chars, most significant first
(30_encoding.md R74, R84; 43_packer.md R183). -/
def packWord (final : Bool) (z0 z1 z2 : Zchar) : PackedWord := BitVec.ofBool final ++ z0 ++ z1 ++ z2

/-- `E`, bit 15. -/
def wordMarker (n : PackedWord) : Bool := n.getLsbD 15

/-- `Z0 = (n >> 10) & 0x1F`. -/
def wordZ0 (n : PackedWord) : Zchar := n.extractLsb' 10 5

/-- `Z1 = (n >> 5) & 0x1F`. -/
def wordZ1 (n : PackedWord) : Zchar := n.extractLsb' 5 5

/-- `Z2 = n & 0x1F`. -/
def wordZ2 (n : PackedWord) : Zchar := n.extractLsb' 0 5

/-- `word[15:8]`, the byte at the even offset (20_memory.md R54). -/
def wordHighByte (n : PackedWord) : Byte := n.extractLsb' 8 8

/-- `word[7:0]`, the byte at the odd offset (20_memory.md R54). -/
def wordLowByte (n : PackedWord) : Byte := n.extractLsb' 0 8

/-- `word = (byte[2i] << 8) | byte[2i+1]` (20_memory.md R54). -/
def wordOfBytes (high low : Byte) : PackedWord := high ++ low

/-! ### The 10-bit escape -/

/-- `hi = c[9:5]` (30_encoding.md R81). -/
def escapeHigh (c : Zscii) : Zchar := c.extractLsb' 5 5

/-- `lo = c[4:0]` (30_encoding.md R81). -/
def escapeLow (c : Zscii) : Zchar := c.extractLsb' 0 5

/-- `cp = (hi << 5) | lo` (30_encoding.md R80). -/
def escapeCodepoint (high low : Zchar) : Zscii := high ++ low

/-! ### The encoder's input element -/

/-- What an input port of `width` bits takes of a lane: its low bits (00_scope.md R8; log 3). -/
def zsciiPort (width : Nat) (e : Elem) : Nat := e % 2 ^ width

/-- `c < 1024`: no bit above bit 9 is set (30_encoding.md R78). -/
def inZsciiRange (c : Nat) : Bool := c < 1024

/-- `c[9:0]`, the codepoint of an element below 1024. -/
def zsciiOfInput (c : Nat) : Zscii := BitVec.ofNat 10 c

/-- `ERR_VALUE` for an input element: the element (10_state.md R36), where it fits the field's 16 bits, and
else a free value (log 5). -/
def errValueOfInput (c : Nat) : BitVec 16 := if c < 2 ^ 16 then BitVec.ofNat 16 c else wideErrValue c

/-! ### Alphabet positions -/

/-- The lookup index of a literal Z-char, `26*ALPH + (z - 6)` (30_encoding.md R82). -/
def literalIndex (alph : BitVec 2) (z : Zchar) : Nat := alphaSlots * alph.toNat + (z.toNat - 6)

/-- The shortcut of slot `j` of alphabet `k`: `[6 + j]` for A0, `[3 + k, 6 + j]` for A1 and A2
(30_encoding.md R83). -/
def shortcutOfSlot (k j : Nat) : Shortcut :=
  if k = 0 then .one (BitVec.ofNat 5 (6 + j)) else .two (BitVec.ofNat 5 (3 + k)) (BitVec.ofNat 5 (6 + j))

/-! ### The command byte -/

/-- `OP`, bits 2:0 of a command byte (30_encoding.md R85). -/
def commandOp (b : BitVec 8) : BitVec 3 := b.extractLsb' 0 3

/-- `ALT`, bit 3. -/
def commandAlt (b : BitVec 8) : Bool := b.getLsbD 3

/-- `RSV`, bits 7:4. -/
def commandRsv (b : BitVec 8) : BitVec 4 := b.extractLsb' 4 4

/-- The command byte of an operation code with `RSV = 0` (30_encoding.md R85). -/
def commandByte (alt : Bool) (op : BitVec 3) : BitVec 8 := 0#4 ++ BitVec.ofBool alt ++ op

/-- A command byte is reserved: `OP = 7`, or `RSV ≠ 0`, or `ALT = 1` with `OP ≠ 0`
(30_encoding.md R89; 60_exceptions.md R238). -/
def reservedCommand (b : BitVec 8) : Bool :=
  commandOp b == 7#3 || commandRsv b != 0#4 || (commandAlt b && commandOp b != 0#3)

end Sys2Proof.Machine
end

