-- ==== Sys2Proof/Machine/Alphabet.lean ====
section
/-! DEFINITION. The default alphabet table and the shortcut map derived from a table
(10_state.md R30, R31, R33; 40_configure.md section 2). -/

namespace Sys2Proof.Machine

/-! ### `DEFAULT_ALPHABET` (10_state.md R31)
Rows the source does not fix are the spec's general knowledge (93_implementation_defined.md G1 to G4),
PRESUMED, log 8. -/

/-- A0: `a` to `z`. -/
def defaultA0 : List Zscii :=
  [0x61, 0x62, 0x63, 0x64, 0x65, 0x66, 0x67, 0x68, 0x69, 0x6A, 0x6B, 0x6C, 0x6D,
   0x6E, 0x6F, 0x70, 0x71, 0x72, 0x73, 0x74, 0x75, 0x76, 0x77, 0x78, 0x79, 0x7A]

/-- A1: `A` to `Z`. -/
def defaultA1 : List Zscii :=
  [0x41, 0x42, 0x43, 0x44, 0x45, 0x46, 0x47, 0x48, 0x49, 0x4A, 0x4B, 0x4C, 0x4D,
   0x4E, 0x4F, 0x50, 0x51, 0x52, 0x53, 0x54, 0x55, 0x56, 0x57, 0x58, 0x59, 0x5A]

/-- A2: NUL, CR, the digits, and ``. , ! ? _ # ' " / \ - : ( )``. -/
def defaultA2 : List Zscii :=
  [0x00, 0x0D, 0x30, 0x31, 0x32, 0x33, 0x34, 0x35, 0x36, 0x37, 0x38, 0x39, 0x2E,
   0x2C, 0x21, 0x3F, 0x5F, 0x23, 0x27, 0x22, 0x2F, 0x5C, 0x2D, 0x3A, 0x28, 0x29]

/-- `DEFAULT_ALPHABET`: the three shift alphabets, one after another. -/
def defaultAlphabet : AlphabetTable := ⟨(defaultA0 ++ defaultA1 ++ defaultA2).toArray, rfl⟩

/-- `ALPHA[i]` (00_scope.md R12); `none` outside 0 to 77, an index no reachable lookup forms (20_memory.md R50). -/
def alphaEntry (table : AlphabetTable) (i : Nat) : Option Zscii := table[i]?

/-- `WARN_A2S0`, a function of the table: index 52 is not NUL (10_state.md R34; 40_configure.md R105). -/
def escapeSlotWarning (table : AlphabetTable) : Bool := table[escSlot]'(by decide) != 0#10

/-! ### The shortcut map -/

/-- `SC(c)` (00_scope.md R12; 10_state.md R33). -/
def scGet : ShortcutMap → Zscii → Option Shortcut
  | [], _ => none
  | (k, v) :: rest, c => if k = c then some v else scGet rest c

/-- `S[c] <- v`, in the place that keeps the listed codepoints rising. -/
def scPut (c : Zscii) (v : Shortcut) : ShortcutMap → ShortcutMap
  | [] => [(c, v)]
  | (k, w) :: rest =>
    if c < k then (c, v) :: (k, w) :: rest
    else if c = k then (c, v) :: rest
    else (k, w) :: scPut c v rest

/-- The body of the derivation's loop: index `idx` of the table gives its codepoint a shortcut, unless
it is the escape marker (40_configure.md R111) or the codepoint already has one (R113). -/
def scVisit (table : AlphabetTable) (s : ShortcutMap) (idx : Nat) : ShortcutMap :=
  if idx = escSlot then s
  else
    match alphaEntry table idx with
    | none => s
    | some c =>
      if (scGet s c).isSome then s else scPut c (shortcutOfSlot (idx / alphaSlots) (idx % alphaSlots)) s

/-- `derive_shortcuts(A)` (40_configure.md R110): the loop over all indices in ascending order, then the
fixed shortcut of space (R112). -/
@[irreducible] def deriveShortcuts (table : AlphabetTable) : ShortcutMap :=
  scPut zsciiSpace (.one 0) ((List.range alphaN).foldl (scVisit table) [])

/-- The canonical form of a shortcut map: codepoints strictly rising. -/
def scSorted (s : ShortcutMap) : Bool := decide (s.Pairwise fun a b => a.1 < b.1)

end Sys2Proof.Machine
end

