-- ==== Sys2Proof/Machine/Params.lean ====
section
/-! DEFINITION. The parameters an implementation of the block fixes and a model takes as an argument
(00_scope.md R8; 93_implementation_defined.md U1, U2, U13), and what the spec requires of each. -/

namespace Sys2Proof

namespace Machine

/-! ### What every `DEFAULT_ALPHABET` keeps (10_state.md R31; 92_eei_decisions.md D7) -/

/-- The entries the source fixes, by absolute index: `d`, `e`, `l`, `o`, `r`, `w`, `H`, NUL, CR, `.` and `,`
(10_state.md R31). -/
def fixedEntries : List (Nat × Zscii) :=
  [(3, 0x64), (4, 0x65), (11, 0x6C), (14, 0x6F), (17, 0x72), (22, 0x77), (33, 0x48), (52, 0x00), (53, 0x0D),
   (64, 0x2E), (65, 0x2C)]

/-- "lowercase letters": `a` to `z`. The ASCII chart is the spec's general knowledge (G6). PRESUMED, log 22. -/
def isLowercase (c : Zscii) : Bool := 0x61 ≤ c && c ≤ 0x7A

/-- "uppercase letters": `A` to `Z`. PRESUMED, log 22. -/
def isUppercase (c : Zscii) : Bool := 0x41 ≤ c && c ≤ 0x5A

/-- "digits/punctuation/control": the ASCII codes that are neither letters nor space. PRESUMED, log 22. -/
def isDigitPunctuationControl (c : Zscii) : Bool :=
  c ≤ 0x7F && c != zsciiSpace && !isLowercase c && !isUppercase c

/-- What entry `i` of a default table may hold, by its shift alphabet. -/
def fitsBlock (i : Nat) (c : Zscii) : Bool :=
  if i < 26 then isLowercase c else if i < 52 then isUppercase c else isDigitPunctuationControl c

/-- `table` may stand as `DEFAULT_ALPHABET`: it has the entries the source fixes and its three blocks are as
described. Nothing else constrains it (10_state.md R31; 93_implementation_defined.md U2). -/
def legalDefault (table : AlphabetTable) : Bool :=
  (fixedEntries.all fun e => alphaEntry table e.1 == some e.2) &&
    (List.range alphaN).all fun i => (alphaEntry table i).any (fitsBlock i)

end Machine

/-- The parameters of a block (log 4, log 5). -/
structure Params where
  /-- `A2_SLOT0_FATAL`: whether a non-NUL index 52 makes `CONFIGURE` fail (40_configure.md R105). -/
  a2Slot0Fatal : Bool
  /-- `DEFAULT_ALPHABET`: the table of reset and of a `CONFIGURE` without override (10_state.md R31). -/
  defaultAlphabet : AlphabetTable
  /-- The table is one the spec allows (10_state.md R31). -/
  defaultAlphabet_legal : Machine.legalDefault defaultAlphabet = true
  /-- `ZSCII_IN_W`: the width of the encoder's input port. -/
  zsciiInW : Nat
  /-- The port can present a codepoint out of range (92_eei_decisions.md D4). -/
  zsciiInW_wide : 11 ≤ zsciiInW
  deriving DecidableEq, Repr

/-- The parameters at the spec's defaults (00_scope.md R8). -/
def Machine.defaultParams : Params where
  a2Slot0Fatal := false
  defaultAlphabet := defaultAlphabet
  defaultAlphabet_legal := by decide
  zsciiInW := defaultZsciiInW
  zsciiInW_wide := by decide

end Sys2Proof
end

