-- ==== Sys2Proof/Machine/State.lean ====
section
/-! DEFINITION. The state of the block (10_state.md), its port towards the host (30_encoding.md R86), the
reasons a step can stop, and the state after reset (10_state.md R47). -/

namespace Sys2Proof.Machine

/-- A fault of the machine. There is none, so nobody raises one: every error of an operation is a response,
a defined next state (60_exceptions.md R230 to R235). Safe: a machine that cannot fault hides nothing. -/
inductive Fault where
  deriving DecidableEq, Repr

/-- Why the model gives a step no meaning. -/
inductive Refusal where
  /-- An instruction without a meaning yet, by its mnemonic. Raised by refused arms of `exec` only: there
  is none. Safe: the model stops where the hardware goes on. -/
  | notModelled (mnemonic : String)
  /-- A decode key outside the reachable ones: `PHASE = 3` or `ALPH = 3` (93_implementation_defined.md U3).
  Raised by `step` when the key matches no row, and by `ZC_LIT` when the key's `ALPH = 3` puts the lookup
  outside the table. Safe: no run reaches it (42_decoder.md R167). Log 10. -/
  | unreachableKey
  /-- The unpacker at the last byte of a buffer of odd length. `UNPACK` refuses such a buffer before it
  reads a word (43_packer.md R191), and no word is split (20_memory.md R58). Raised by `step`. Safe: no run
  reaches it. Log 11. -/
  | splitWord
  deriving DecidableEq, Repr

/-- The end-of-stream mode of a decoding stage (42_decoder.md R165). -/
inductive EndMode where
  /-- `DEC_Z`: a pending shift at the end of the stream is an error. -/
  | strict
  /-- The decoding stage of `DECODE_Z`: it is discarded. -/
  | lenient
  deriving DecidableEq, Repr

/-- What the engine is doing: the stage that runs, and what its output goes to. -/
inductive Engine where
  /-- Between requests (60_exceptions.md R246). -/
  | idle
  /-- The encoder: for `ENC_Z`, or (`thenPack`) the first stage of `ENCODE_Z` (44_composed.md R210). -/
  | encoder (thenPack : Bool)
  /-- The decoder, in its end-of-stream mode (42_decoder.md R150). -/
  | decoder (mode : EndMode)
  /-- The packer: for `PACK`, or the second stage of `ENCODE_Z`. -/
  | packer
  /-- The unpacker: for `UNPACK`, or (`thenDecode`) the first stage of `DECODE_Z` (44_composed.md R215). -/
  | unpacker (thenDecode : Bool)
  deriving DecidableEq, Repr

/-- A request (30_encoding.md R86). `data` holds elements of the type 20_memory.md R51 gives the operation,
each in a lane; the operation's port takes the low bits it has (log 3). -/
structure Request where
  cmd : BitVec 8
  version : Nat
  data : List Elem
  deriving DecidableEq, Repr

/-- A response (30_encoding.md R86). -/
structure Response where
  status : BitVec 4
  errValue : BitVec 16
  errAlph : BitVec 2
  errPos : Nat
  warn : Bool
  out : List Elem
  deriving DecidableEq, Repr

/-- The configuration state (10_state.md R30 to R34). -/
structure Configuration where
  /-- `ALPHA[0..77]`. -/
  alpha : AlphabetTable
  /-- `SC`. -/
  sc : ShortcutMap
  /-- `CFG_VERSION`. -/
  cfgVersion : Nat
  /-- `WARN_A2S0`. -/
  warnA2s0 : Bool
  deriving DecidableEq, Repr

/-- The response state (10_state.md R35 to R38). -/
structure ResponseState where
  /-- `STATUS`. -/
  status : BitVec 4
  /-- `ERR_VALUE`. -/
  errValue : BitVec 16
  /-- `ERR_ALPH`. -/
  errAlph : BitVec 2
  /-- `ERR_POS`. -/
  errPos : Nat
  deriving DecidableEq, Repr

/-- The working state of one operation (10_state.md R40 to R46; 20_memory.md R51). -/
structure WorkingState where
  /-- `ALPH`, the pending alphabet: 0 = A0, 1 = A1, 2 = A2. -/
  alph : BitVec 2
  /-- `PHASE`: 0 = NORMAL, 1 = ESC_HI, 2 = ESC_LO. -/
  phase : BitVec 2
  /-- `ESC_HI_LATCH`. -/
  escHiLatch : Zchar
  /-- `GRP[0..2]`. -/
  grp : Vector Zchar 3
  /-- `GCNT`. -/
  gcnt : Fin 4
  /-- `TERM_SEEN`. -/
  termSeen : Bool
  /-- `IDX`. -/
  idx : Nat
  /-- The running stage's input buffer. -/
  input : List Elem
  /-- `OUT`, the running stage's output buffer. -/
  out : List Elem
  deriving DecidableEq, Repr

/-- The block and its port. -/
structure State where
  /-- The implementation's parameters; nothing writes them (log 4). -/
  params : Params
  /-- Configuration state. -/
  config : Configuration
  /-- Response state. -/
  response : ResponseState
  /-- Working state. -/
  work : WorkingState
  /-- What the engine is doing. -/
  engine : Engine
  /-- The request in progress, or the last one. -/
  request : Request
  /-- Requests presented and waiting, oldest first (70_reset_and_hazards.md R264; log 2). -/
  requests : List Request
  /-- Responses given, oldest first (the host's side of the port; log 2). -/
  responses : List Response
  deriving DecidableEq, Repr

/-- The configuration of a table: the table, its shortcut map and its warning flag
(40_configure.md R104; 10_state.md R33, R34). -/
def Configuration.ofTable (table : AlphabetTable) (version : Nat) : Configuration where
  alpha := table
  sc := deriveShortcuts table
  cfgVersion := version
  warnA2s0 := escapeSlotWarning table

/-- `STATUS = 0` and the error fields 0: the response state after reset and after a success
(10_state.md R36 to R38, R47). -/
def ResponseState.success : ResponseState := { status := 0, errValue := 0, errAlph := 0, errPos := 0 }

/-- The working state after reset, which the spec leaves unspecified and nothing observes
(10_state.md R47; U8). DESIGN CHOICE zero, log 7. -/
def WorkingState.zero : WorkingState where
  alph := 0
  phase := 0
  escHiLatch := 0
  grp := #v[0, 0, 0]
  gcnt := 0
  termSeen := false
  idx := 0
  input := []
  out := []

/-- The state after reset of a block with the given parameters (10_state.md R47). -/
def State.resetWith (params : Params) : State where
  params := params
  config := Configuration.ofTable params.defaultAlphabet supportedVersion
  response := ResponseState.success
  work := WorkingState.zero
  engine := .idle
  request := { cmd := 0, version := 0, data := [] }
  requests := []
  responses := []

/-- The machine right after reset, with the spec's default parameters (10_state.md R47; 00_scope.md R8). -/
def State.reset : State := State.resetWith defaultParams

end Sys2Proof.Machine
end

