-- ==== Sys2Proof/Machine/Flags.lean ====
section
/-! DEFINITION. The status codes and the block's one-bit flags (60_exceptions.md R231; 10_state.md R34, R35, R45). -/

namespace Sys2Proof.Machine

/-- The error kinds of 60_exceptions.md R231, in the order of their codes. The block never raises
`ambiguousMapping`, `unmappableUnicodeChar` and `unmappableZsciiChar`: they are reserved for the out-of-scope
ZsciiTable (00_scope.md R7). -/
inductive ErrorKind where
  | unsupportedVersion
  | invalidAlphabetTable
  | ambiguousMapping
  | unmappableUnicodeChar
  | unmappableZsciiChar
  | zsciiCodepointOutOfRange
  | truncatedEscape
  | unknownZchar
  | truncatedInput
  | oddLengthInput
  | trailingDataAfterTerminator
  | reservedOperation
  | escapeSlotNotNul
  deriving DecidableEq, Repr

/-- The `STATUS` code of an error kind (60_exceptions.md R231). -/
def statusCode : ErrorKind → BitVec 4
  | .unsupportedVersion => 1
  | .invalidAlphabetTable => 2
  | .ambiguousMapping => 3
  | .unmappableUnicodeChar => 4
  | .unmappableZsciiChar => 5
  | .zsciiCodepointOutOfRange => 6
  | .truncatedEscape => 7
  | .unknownZchar => 8
  | .truncatedInput => 9
  | .oddLengthInput => 10
  | .trailingDataAfterTerminator => 11
  | .reservedOperation => 12
  | .escapeSlotNotNul => 13

/-- `PHASE` values (10_state.md R42). -/
def phaseNormal : BitVec 2 := 0

/-- The next Z-char is the high five bits of an escaped codepoint. -/
def phaseEscHi : BitVec 2 := 1

/-- The next Z-char is the low five bits. -/
def phaseEscLo : BitVec 2 := 2

/-- `TERM_SEEN` after a word: set by a word with bit 15 set, and it stays set (10_state.md R45;
43_packer.md R192). -/
def termSeenAfter (termSeen : Bool) (marker : Bool) : Bool := termSeen || marker

/-- Bit 15 of the word that ends with input element `idx` of `n`: set for the final word only
(43_packer.md R184). -/
def finalWord (idx n : Nat) : Bool := idx + 1 == n

end Sys2Proof.Machine
end

