-- ==== Sys2Proof/Machine/Ops.lean ====
section
/-! DEFINITION. The operations that every instruction is written with: the primitives of 00_scope.md R12,
starting a stage, responding, and raising an error. -/

namespace Sys2Proof.Machine

/-! ### Buffers and the cursor -/

/-- `MemRead(IDX, 1)` of the running stage's input buffer; `none` at its end (00_scope.md R12; 20_memory.md R51). -/
def memRead (s : State) : Option Elem := s.work.input[s.work.idx]?

/-- `MemRead(IDX + 1, 1)`, the second byte of the unpacker's word (43_packer.md R190). -/
def memReadNext (s : State) : Option Elem := s.work.input[s.work.idx + 1]?

/-- `emit`: appends to `OUT`, and nothing else (20_memory.md R52; 10_state.md R46). -/
def emit (v : Elem) (s : State) : State := { s with work.out := s.work.out ++ [v] }

/-- `IDX <- IDX + n` (10_state.md R41). -/
def advance (n : Nat) (s : State) : State := { s with work.idx := s.work.idx + n }

/-! ### The decoder's registers -/

/-- `ALPH <- a` (10_state.md R40). -/
def setAlph (a : BitVec 2) (s : State) : State := { s with work.alph := a }

/-- `PHASE <- p` (10_state.md R42). -/
def setPhase (p : BitVec 2) (s : State) : State := { s with work.phase := p }

/-- `ESC_HI_LATCH <- z` (10_state.md R43). -/
def latchHigh (z : Zchar) (s : State) : State := { s with work.escHiLatch := z }

/-! ### The unpacker's flag and the packer's group -/

/-- `TERM_SEEN` takes a word's bit 15 (10_state.md R45). -/
def noteMarker (marker : Bool) (s : State) : State :=
  { s with work.termSeen := termSeenAfter s.work.termSeen marker }

/-- `GRP[GCNT] <- z ; GCNT <- GCNT + 1` (43_packer.md R180). -/
def pushGroup (z : Zchar) (s : State) : State :=
  { s with work.grp := s.work.grp.setIfInBounds s.work.gcnt z, work.gcnt := s.work.gcnt + 1 }

/-- `GCNT <- 0`. -/
def clearGroup (s : State) : State := { s with work.gcnt := 0 }

/-- `put_word(final)`: the group as a word, high byte first (43_packer.md R180, R183). -/
def putWord (final : Bool) (s : State) : State :=
  let w := packWord final s.work.grp[0] s.work.grp[1] s.work.grp[2]
  emit (Elem.ofByte (wordLowByte w)) (emit (Elem.ofByte (wordHighByte w)) s)

/-- `GRP[GCNT..2] <- 5`: the padding of the final group (43_packer.md R182). -/
def padGroup (s : State) : State :=
  { s with
    work.grp := Vector.ofFn fun i => if i.val < s.work.gcnt.val then s.work.grp[i] else padZchar
    work.gcnt := 3 }

/-! ### Responding -/

/-- Gives the response and ends the operation (30_encoding.md R86; 10_state.md R35 to R38). The working
state is abandoned as it stands, but for `OUT`, which is handed over or discarded (10_state.md R46; log 12). -/
def giveResponse (r : ResponseState) (out : List Elem) (s : State) : State :=
  { s with
    response := r
    work.out := []
    engine := .idle
    responses := s.responses ++
      [{ status := r.status, errValue := r.errValue, errAlph := r.errAlph, errPos := r.errPos,
         warn := s.config.warnA2s0, out := out }] }

/-- `respond ok(OUT)`. -/
def respondOk (s : State) : State := giveResponse ResponseState.success s.work.out s

/-- `raise E(info)`, TAKING AN ERROR (60_exceptions.md R233): the output is discarded, the response carries
the code and the information and no output, no later element is read, and the configuration is unchanged.
There is no handler and no saved counter (R234), and THE RETURN from it is the acceptance of the next
request (R235), `acceptRequest`. -/
def raise (kind : ErrorKind) (value : BitVec 16) (alph : BitVec 2) (pos : Nat) (s : State) : State :=
  giveResponse { status := statusCode kind, errValue := value, errAlph := alph, errPos := pos } [] s

/-! ### Starting a stage: `OUT` empty, `IDX = 0`, and the stage's own registers (10_state.md R40 to R46) -/

/-- What every stage does first. -/
def startStage (engine : Engine) (input : List Elem) (s : State) : State :=
  { s with engine := engine, work.input := input, work.idx := 0, work.out := [] }

/-- The encoder (41_encoder.md R130). -/
def startEncoder (thenPack : Bool) (input : List Elem) (s : State) : State :=
  startStage (.encoder thenPack) input s

/-- The decoder, from `ALPH = 0` and `PHASE = NORMAL` (42_decoder.md R151). -/
def startDecoder (mode : EndMode) (input : List Elem) (s : State) : State :=
  setPhase phaseNormal (setAlph 0 (startStage (.decoder mode) input s))

/-- The packer, with an empty group (43_packer.md R180). -/
def startPacker (input : List Elem) (s : State) : State :=
  clearGroup (startStage .packer input s)

/-- The unpacker: the length check on the whole buffer (43_packer.md R191), then the stage with
`TERM_SEEN = 0` (R190). -/
def startUnpacker (thenDecode : Bool) (input : List Elem) (s : State) : State :=
  if input.length % 2 = 1 then
    raise .oddLengthInput 0 0 input.length s
  else
    let t := startStage (.unpacker thenDecode) input s
    { t with work.termSeen := false }

/-! ### The packer's steps, which have no row of the opcode table -/

/-- One Z-char enters the group; a full group becomes a word (43_packer.md R180, R181, R184). -/
def packElement (z : Zchar) (s : State) : State :=
  let t := pushGroup z s
  advance 1
    (if t.work.gcnt = 3 then clearGroup (putWord (finalWord s.work.idx s.work.input.length) t) else t)

/-- The end of the packer's input: an incomplete group is padded and is the final word (43_packer.md R182, R184). -/
def flushGroup (s : State) : State :=
  if s.work.gcnt = 0 then s else clearGroup (putWord true (padGroup s))

/-! ### The end of a stage -/

/-- The decoder's end of stream (42_decoder.md R162, R164, R165). -/
def finishDecoder (mode : EndMode) (s : State) : State :=
  if s.work.phase ≠ phaseNormal then raise .truncatedEscape 0 0 s.work.input.length s
  else if s.work.alph ≠ 0 ∧ mode = .strict then raise .truncatedInput 0 0 s.work.input.length s
  else respondOk s

/-- The end of the running stage's input: respond, or hand `OUT` to the next stage of a composed operation
(10_state.md R46; 44_composed.md R210, R215). -/
def finishStage (s : State) : State :=
  match s.engine with
  | .idle => s
  | .encoder false => respondOk s
  | .encoder true => startPacker s.work.out s
  | .decoder mode => finishDecoder mode s
  | .packer => respondOk (flushGroup s)
  | .unpacker false => respondOk s
  | .unpacker true => startDecoder .lenient s.work.out s

end Sys2Proof.Machine
end

