-- ==== Sys2Proof/Machine/Commands.lean ====
section
/-! DEFINITION. The commands (30_encoding.md R85). `CONFIGURE` and a reserved command respond at once; the others
start their first stage on the request's data, and the stage's elements are the steps that follow
(70_reset_and_hazards.md R272; log 1). -/

namespace Sys2Proof.Machine

/-- Loads a table of 78 entries: the index-52 check, then the atomic update of `ALPHA`, `SC` and
`WARN_A2S0` (40_configure.md R104, R105). -/
def loadTable (table : AlphabetTable) (s : State) : State :=
  if escapeSlotWarning table = true ∧ s.params.a2Slot0Fatal = true then
    raise .escapeSlotNotNul ((table[escSlot]'(by decide)).setWidth 16) 0 0 s
  else
    giveResponse ResponseState.success []
      { s with config := Configuration.ofTable table s.config.cfgVersion }

/-- Loads an alphabet of any length: the length check (40_configure.md R103), then the rest. -/
def loadAlphabet (entries : List Zscii) (s : State) : State :=
  if h : entries.toArray.size = alphaN then loadTable ⟨entries.toArray, h⟩ s
  else raise .invalidAlphabetTable (BitVec.ofNat 16 entries.length) 0 0 s

/-- `CONFIGURE` (40_configure.md R100): the version, the length and index 52 are checked in this order
(R107); `ALT = 0` ignores the data (R108). -/
def execConfigure (alt : Bool) (s : State) : Host.Outcome State Fault Refusal :=
  if s.request.version ≠ supportedVersion then
    .next (raise .unsupportedVersion (BitVec.ofNat 16 s.request.version) 0 0 s)
  else if alt then
    .next (loadAlphabet (s.request.data.map Elem.toZscii) s)
  else
    .next (loadAlphabet s.params.defaultAlphabet.toList s)

/-- `ENC_Z` (41_encoder.md R130). -/
def execEncZ (s : State) : Host.Outcome State Fault Refusal :=
  .next (startEncoder false s.request.data s)

/-- `DEC_Z` (42_decoder.md R150): end-of-stream mode STRICT. -/
def execDecZ (s : State) : Host.Outcome State Fault Refusal :=
  .next (startDecoder .strict s.request.data s)

/-- `PACK` (43_packer.md R180). -/
def execPack (s : State) : Host.Outcome State Fault Refusal :=
  .next (startPacker s.request.data s)

/-- `UNPACK` (43_packer.md R190). -/
def execUnpack (s : State) : Host.Outcome State Fault Refusal :=
  .next (startUnpacker false s.request.data s)

/-- `ENCODE_Z` (44_composed.md R210): the encoder, then the packer. -/
def execEncodeZ (s : State) : Host.Outcome State Fault Refusal :=
  .next (startEncoder true s.request.data s)

/-- `DECODE_Z` (44_composed.md R215): the unpacker, then the decoder in mode LENIENT. -/
def execDecodeZ (s : State) : Host.Outcome State Fault Refusal :=
  .next (startUnpacker true s.request.data s)

/-- A reserved command (60_exceptions.md R238): `ReservedOperation` with the byte; nothing else is read. -/
def execReserved (cmd : BitVec 8) (s : State) : Host.Outcome State Fault Refusal :=
  .next (raise .reservedOperation (cmd.setWidth 16) 0 0 s)

end Sys2Proof.Machine
end

