-- ==== Sys2Proof/Machine/Decoder.lean ====
section
/-! DEFINITION. The decoder's per-Z-char instructions (42_decoder.md sections 2 and 3). The operand `alph` is the
key's `ALPH` field, which is the register `ALPH` at the moment the key is formed (30_encoding.md R71). -/

namespace Sys2Proof.Machine

/-- `ZC_ESC_HI` (R160): latches the first escape operand. -/
def execZcEscHi (z : Zchar) (s : State) : Host.Outcome State Fault Refusal :=
  .next (advance 1 (setPhase phaseEscLo (latchHigh z s)))

/-- `ZC_ESC_LO` (R161): emits `(ESC_HI_LATCH << 5) | z` and returns to A0. -/
def execZcEscLo (z : Zchar) (s : State) : Host.Outcome State Fault Refusal :=
  .next (advance 1 (setAlph 0 (setPhase phaseNormal
    (emit (Elem.ofZscii (escapeCodepoint s.work.escHiLatch z)) s))))

/-- `ZC_SPACE` (R152): emits space; a pending shift is discarded. -/
def execZcSpace (s : State) : Host.Outcome State Fault Refusal :=
  .next (advance 1 (setAlph 0 (emit (Elem.ofZscii zsciiSpace) s)))

/-- `ZC_RSV` (R153): raises `UnknownZchar` with the Z-char, the pending alphabet and the index. -/
def execZcRsv (alph : BitVec 2) (z : Zchar) (s : State) : Host.Outcome State Fault Refusal :=
  .next (raise .unknownZchar (z.setWidth 16) alph s.work.idx s)

/-- `ZC_SHIFT_A1` (R155). -/
def execZcShiftA1 (s : State) : Host.Outcome State Fault Refusal :=
  .next (advance 1 (setAlph 1 s))

/-- `ZC_SHIFT_A2` (R156). -/
def execZcShiftA2 (s : State) : Host.Outcome State Fault Refusal :=
  .next (advance 1 (setAlph 2 s))

/-- `ZC_ESCAPE` (R157): `ALPH` stays 2. -/
def execZcEscape (s : State) : Host.Outcome State Fault Refusal :=
  .next (advance 1 (setPhase phaseEscHi s))

/-- `ZC_LIT` (R158): emits the table entry as stored (R159). A key with `ALPH = 3`, which no step forms,
has an index outside the table (93_implementation_defined.md U3). -/
def execZcLit (alph : BitVec 2) (z : Zchar) (s : State) : Host.Outcome State Fault Refusal :=
  match alphaEntry s.config.alpha (literalIndex alph z) with
  | some c => .next (advance 1 (setAlph 0 (emit (Elem.ofZscii c) s)))
  | none => .refused .unreachableKey

end Sys2Proof.Machine
end

