-- ==== Sys2Proof/Machine/Encoder.lean ====
section
/-! DEFINITION. The encoder's per-element instructions (41_encoder.md section 2). Each appends to `OUT`, never
overwrites it (R137), and moves to the next element. -/

namespace Sys2Proof.Machine

/-- `ENC_SPACE` (R132): emits Z-char 0. -/
def execEncSpace (s : State) : Host.Outcome State Fault Refusal :=
  .next (advance 1 (emit (Elem.ofZchar 0) s))

/-- `ENC_SC1` (R133): emits the one Z-char of the shortcut. -/
def execEncSc1 (z : Zchar) (s : State) : Host.Outcome State Fault Refusal :=
  .next (advance 1 (emit (Elem.ofZchar z) s))

/-- `ENC_SC2` (R134): emits the shift and then the Z-char. -/
def execEncSc2 (shift z : Zchar) (s : State) : Host.Outcome State Fault Refusal :=
  .next (advance 1 (emit (Elem.ofZchar z) (emit (Elem.ofZchar shift) s)))

/-- `ENC_ESC` (R135): emits 5, 6, `c[9:5]` and `c[4:0]`. -/
def execEncEsc (c : Zscii) (s : State) : Host.Outcome State Fault Refusal :=
  .next (advance 1 (emit (Elem.ofZchar (escapeLow c)) (emit (Elem.ofZchar (escapeHigh c))
    (emit (Elem.ofZchar 6) (emit (Elem.ofZchar 5) s)))))

/-- `ENC_OOR` (R136): raises `ZsciiCodepointOutOfRange` with the element and its index. -/
def execEncOor (c : Nat) (s : State) : Host.Outcome State Fault Refusal :=
  .next (raise .zsciiCodepointOutOfRange (errValueOfInput c) 0 s.work.idx s)

end Sys2Proof.Machine
end

