-- ==== Sys2Proof/Machine/Unpacker.lean ====
section
/-! DEFINITION. The unpacker's per-word instructions (43_packer.md R192, R193). -/

namespace Sys2Proof.Machine

/-- What `PW_MID` and `PW_FINAL` share (R192): the three Z-chars in order, the marker noted, two bytes consumed. -/
def unpackWord (marker : Bool) (z0 z1 z2 : Zchar) (s : State) : State :=
  advance 2 (noteMarker marker
    (emit (Elem.ofZchar z2) (emit (Elem.ofZchar z1) (emit (Elem.ofZchar z0) s))))

/-- `PW_AFTER_TERM` (R193): raises `TrailingDataAfterTerminator` with the word's byte offset, whatever the
word holds. -/
def execPwAfterTerm (s : State) : Host.Outcome State Fault Refusal :=
  .next (raise .trailingDataAfterTerminator 0 0 s.work.idx s)

/-- `PW_MID` (R192). -/
def execPwMid (z0 z1 z2 : Zchar) (s : State) : Host.Outcome State Fault Refusal :=
  .next (unpackWord false z0 z1 z2 s)

/-- `PW_FINAL` (R192): also sets `TERM_SEEN`. -/
def execPwFinal (z0 z1 z2 : Zchar) (s : State) : Host.Outcome State Fault Refusal :=
  .next (unpackWord true z0 z1 z2 s)

end Sys2Proof.Machine
end

