-- ==== Sys2Proof/Syntax.lean ====
section
/-! DEFINITION. The instructions: one constructor for each mnemonic of spec/opcode_table.json.
An instruction is what the selection tables of 30_encoding.md decode: a Z-char step of the decoder (R72), a
word of the unpacker (R75), a codepoint of the encoder (R78), or a command of the host (R85). The operands
are the fields of the decoded word that its row does not fix. -/

namespace Sys2Proof

inductive Instr where
  /-- `ZC_ESC_HI`: first escape operand (42_decoder.md R160). -/
  | zcEscHi (alph : BitVec 2) (z : Zchar)
  /-- `ZC_ESC_LO`: second escape operand (R161). -/
  | zcEscLo (alph : BitVec 2) (z : Zchar)
  /-- `ZC_SPACE`: Z-char 0 (R152). -/
  | zcSpace (alph : BitVec 2)
  /-- `ZC_RSV`: Z-chars 1, 2 and 3 (R153). -/
  | zcRsv (alph : BitVec 2) (z : Zchar)
  /-- `ZC_SHIFT_A1`: Z-char 4 (R155). -/
  | zcShiftA1 (alph : BitVec 2)
  /-- `ZC_SHIFT_A2`: Z-char 5 (R156). -/
  | zcShiftA2 (alph : BitVec 2)
  /-- `ZC_ESCAPE`: Z-char 6 in A2 (R157). -/
  | zcEscape
  /-- `ZC_LIT`: Z-chars 6 to 31 but for the escape (R158). -/
  | zcLit (alph : BitVec 2) (z : Zchar)
  /-- `PW_AFTER_TERM`: a word after the terminator (43_packer.md R193). -/
  | pwAfterTerm (word : PackedWord)
  /-- `PW_MID`: a word with bit 15 clear (R192). -/
  | pwMid (z0 z1 z2 : Zchar)
  /-- `PW_FINAL`: a word with bit 15 set (R192). -/
  | pwFinal (z0 z1 z2 : Zchar)
  /-- `ENC_SPACE`: codepoint 0x0020 (41_encoder.md R132). -/
  | encSpace
  /-- `ENC_SC1`: codepoint `c` with `SC(c) = [z]` (R133). -/
  | encSc1 (c : Zscii) (z : Zchar)
  /-- `ENC_SC2`: codepoint `c` with `SC(c) = [shift, z]` (R134). -/
  | encSc2 (c : Zscii) (shift z : Zchar)
  /-- `ENC_ESC`: codepoint `c` without a shortcut (R135). -/
  | encEsc (c : Zscii)
  /-- `ENC_OOR`: an input value of 1024 or more (R136), of an input port of any width. -/
  | encOor (c : Nat)
  /-- `CONFIGURE`, with its `ALT` bit (40_configure.md R100). -/
  | configure (alt : Bool)
  /-- `ENC_Z` (41_encoder.md R130). -/
  | encZ
  /-- `DEC_Z` (42_decoder.md R150). -/
  | decZ
  /-- `PACK` (43_packer.md R180). -/
  | pack
  /-- `UNPACK` (43_packer.md R190). -/
  | unpack
  /-- `ENCODE_Z` (44_composed.md R210). -/
  | encodeZ
  /-- `DECODE_Z` (44_composed.md R215). -/
  | decodeZ
  /-- `RESERVED`: a reserved command byte (60_exceptions.md R238). -/
  | reserved (cmd : BitVec 8)
  deriving DecidableEq, Repr

/-- A word of one of the four formats that select an instruction (30_encoding.md R71, R75, R78, R85). -/
inductive CodeWord where
  /-- ZCHAR5: the 9-bit decode key `PHASE : ALPH : z`. -/
  | key (k : BitVec 9)
  /-- PWORD16: the 17-bit unpack key `TERM_SEEN : word`. -/
  | unpackKey (k : BitVec 17)
  /-- ZSCII16: the encoder's input element, in 16 bits unless its port is wider (00_scope.md R8). -/
  | zscii (c : Nat)
  /-- CMD8: the command byte. -/
  | cmd (b : BitVec 8)
  deriving DecidableEq, Repr

end Sys2Proof
end

