-- ==== Sys2Proof/Machine/Dispatch.lean ====
section
/-! DEFINITION. The meaning of every instruction. -/

namespace Sys2Proof.Machine

def exec (i : Instr) (s : State) : Host.Outcome State Fault Refusal :=
  match i with
  | .zcEscHi _ z => Sys2Proof.Machine.execZcEscHi z s
  | .zcEscLo _ z => Sys2Proof.Machine.execZcEscLo z s
  | .zcSpace _ => Sys2Proof.Machine.execZcSpace s
  | .zcRsv alph z => Sys2Proof.Machine.execZcRsv alph z s
  | .zcShiftA1 _ => Sys2Proof.Machine.execZcShiftA1 s
  | .zcShiftA2 _ => Sys2Proof.Machine.execZcShiftA2 s
  | .zcEscape => Sys2Proof.Machine.execZcEscape s
  | .zcLit alph z => Sys2Proof.Machine.execZcLit alph z s
  | .pwAfterTerm _ => Sys2Proof.Machine.execPwAfterTerm s
  | .pwMid z0 z1 z2 => Sys2Proof.Machine.execPwMid z0 z1 z2 s
  | .pwFinal z0 z1 z2 => Sys2Proof.Machine.execPwFinal z0 z1 z2 s
  | .encSpace => Sys2Proof.Machine.execEncSpace s
  | .encSc1 _ z => Sys2Proof.Machine.execEncSc1 z s
  | .encSc2 _ shift z => Sys2Proof.Machine.execEncSc2 shift z s
  | .encEsc c => Sys2Proof.Machine.execEncEsc c s
  | .encOor c => Sys2Proof.Machine.execEncOor c s
  | .configure alt => Sys2Proof.Machine.execConfigure alt s
  | .encZ => Sys2Proof.Machine.execEncZ s
  | .decZ => Sys2Proof.Machine.execDecZ s
  | .pack => Sys2Proof.Machine.execPack s
  | .unpack => Sys2Proof.Machine.execUnpack s
  | .encodeZ => Sys2Proof.Machine.execEncodeZ s
  | .decodeZ => Sys2Proof.Machine.execDecodeZ s
  | .reserved cmd => Sys2Proof.Machine.execReserved cmd s

end Sys2Proof.Machine
end

