-- ==== Sys2Proof/WellFormed.lean ====
section
/-! DEFINITION. Which terms of `Instr` are instructions: the operand ranges that the selection tables of
30_encoding.md leave a row. -/

namespace Sys2Proof

/-- The operands of `i` are ones its rows can hold. -/
def Instr.wellFormed : Instr → Bool
  | .zcEscHi _ _ => true
  | .zcEscLo _ _ => true
  | .zcSpace _ => true
  | .zcRsv _ z => 1#5 ≤ z && z ≤ 3#5
  | .zcShiftA1 _ => true
  | .zcShiftA2 _ => true
  | .zcEscape => true
  | .zcLit alph z => 6#5 ≤ z && (z != 6#5 || alph ≤ 1#2)
  | .pwAfterTerm _ => true
  | .pwMid _ _ _ => true
  | .pwFinal _ _ _ => true
  | .encSpace => true
  | .encSc1 c z => c != zsciiSpace && 6#5 ≤ z
  | .encSc2 c shift z => c != zsciiSpace && ((shift == 4#5 && 6#5 ≤ z) || (shift == 5#5 && 7#5 ≤ z))
  | .encEsc c => c != zsciiSpace
  | .encOor c => !Machine.inZsciiRange c
  | .configure _ => true
  | .encZ => true
  | .decZ => true
  | .pack => true
  | .unpack => true
  | .encodeZ => true
  | .decodeZ => true
  | .reserved cmd => Machine.reservedCommand cmd

/-- `i` is well formed. -/
abbrev WellFormed (i : Instr) : Prop := i.wellFormed = true

end Sys2Proof
end

