-- ==== Sys2Proof/Decode.lean ====
section
/-! DEFINITION. The selection tables of 30_encoding.md as data, the decoder that reads them, and the
encoder. The decoder is total on the words of each format and rejects by name what no row matches. -/

namespace Sys2Proof

open Machine

/-- Why a word is no instruction. -/
inductive DecodeError where
  /-- A decode key that matches no row of 30_encoding.md R72: `PHASE = 3`, or `PHASE = 0, ALPH = 3, z = 6`
  (93_implementation_defined.md U3). No rule forms one (42_decoder.md R167). -/
  | unreachableKey
  deriving DecidableEq, Repr

/-- One row of a selection table: the word `k` matches when `k & mask = value`. -/
structure Row (w : Nat) where
  mask : BitVec w
  value : BitVec w
  instr : BitVec w → Instr

/-- The row matches the word. -/
def Row.matches {w : Nat} (r : Row w) (k : BitVec w) : Bool := k &&& r.mask == r.value

/-- The instruction of the first matching row, in table order. -/
def firstRow {w : Nat} (rows : List (Row w)) (k : BitVec w) : Option Instr :=
  (rows.find? fun r => r.matches k).map fun r => r.instr k

/-- The decode-key selection table, rows 1 to 13 (30_encoding.md R72). -/
def keyRows : List (Row 9) :=
  [⟨0x180, 0x080, fun k => .zcEscHi (keyAlph k) (keyZchar k)⟩,
   ⟨0x180, 0x100, fun k => .zcEscLo (keyAlph k) (keyZchar k)⟩,
   ⟨0x19F, 0x000, fun k => .zcSpace (keyAlph k)⟩,
   ⟨0x19F, 0x001, fun k => .zcRsv (keyAlph k) (keyZchar k)⟩,
   ⟨0x19E, 0x002, fun k => .zcRsv (keyAlph k) (keyZchar k)⟩,
   ⟨0x19F, 0x004, fun k => .zcShiftA1 (keyAlph k)⟩,
   ⟨0x19F, 0x005, fun k => .zcShiftA2 (keyAlph k)⟩,
   ⟨0x1FF, 0x046, fun _ => .zcEscape⟩] ++
  [⟨0x1FF, 0x006, fun k => .zcLit (keyAlph k) (keyZchar k)⟩,
   ⟨0x1FF, 0x026, fun k => .zcLit (keyAlph k) (keyZchar k)⟩,
   ⟨0x19F, 0x007, fun k => .zcLit (keyAlph k) (keyZchar k)⟩,
   ⟨0x198, 0x008, fun k => .zcLit (keyAlph k) (keyZchar k)⟩,
   ⟨0x190, 0x010, fun k => .zcLit (keyAlph k) (keyZchar k)⟩]

/-- The unpack-key selection table (30_encoding.md R75). -/
def unpackRows : List (Row 17) :=
  [⟨0x10000, 0x10000, fun k => .pwAfterTerm (unpackKeyWord k)⟩,
   ⟨0x18000, 0x00000, fun k => .pwMid (wordZ0 (unpackKeyWord k)) (wordZ1 (unpackKeyWord k)) (wordZ2 (unpackKeyWord k))⟩,
   ⟨0x18000, 0x08000, fun k => .pwFinal (wordZ0 (unpackKeyWord k)) (wordZ1 (unpackKeyWord k)) (wordZ2 (unpackKeyWord k))⟩]

/-- The encoder's fixed patterns: `ENC_SPACE` and the six rows of `ENC_OOR` (30_encoding.md R79). -/
def encoderRows : List (Row 16) :=
  [⟨0xFFFF, 0x0020, fun _ => .encSpace⟩,
   ⟨0x8000, 0x8000, fun c => .encOor c.toNat⟩,
   ⟨0xC000, 0x4000, fun c => .encOor c.toNat⟩,
   ⟨0xE000, 0x2000, fun c => .encOor c.toNat⟩,
   ⟨0xF000, 0x1000, fun c => .encOor c.toNat⟩,
   ⟨0xF800, 0x0800, fun c => .encOor c.toNat⟩,
   ⟨0xFC00, 0x0400, fun c => .encOor c.toNat⟩]

/-- The command-byte table (30_encoding.md R85, R89). -/
def commandRows : List (Row 8) :=
  [⟨0xFF, 0x00, fun _ => .configure false⟩,
   ⟨0xFF, 0x08, fun _ => .configure true⟩,
   ⟨0xFF, 0x01, fun _ => .encZ⟩,
   ⟨0xFF, 0x02, fun _ => .decZ⟩,
   ⟨0xFF, 0x03, fun _ => .pack⟩,
   ⟨0xFF, 0x04, fun _ => .unpack⟩,
   ⟨0xFF, 0x05, fun _ => .encodeZ⟩,
   ⟨0xFF, 0x06, fun _ => .decodeZ⟩] ++
  [⟨0x07, 0x07, fun b => .reserved b⟩,
   ⟨0x80, 0x80, fun b => .reserved b⟩,
   ⟨0xC0, 0x40, fun b => .reserved b⟩,
   ⟨0xE0, 0x20, fun b => .reserved b⟩,
   ⟨0xF0, 0x10, fun b => .reserved b⟩,
   ⟨0xFF, 0x09, fun b => .reserved b⟩,
   ⟨0xFF, 0x0A, fun b => .reserved b⟩,
   ⟨0xFF, 0x0B, fun b => .reserved b⟩,
   ⟨0xFF, 0x0C, fun b => .reserved b⟩,
   ⟨0xFF, 0x0D, fun b => .reserved b⟩,
   ⟨0xFF, 0x0E, fun b => .reserved b⟩]

/-- A Z-char in the decoder's state (30_encoding.md R72). -/
def decodeKey (k : BitVec 9) : Except DecodeError Instr :=
  match firstRow keyRows k with
  | some i => .ok i
  | none => .error .unreachableKey

/-- A word in the unpacker's state (30_encoding.md R75). The table covers every key: `firstRow` is never
`none` here, and the last row stands for it. -/
def decodeUnpackKey (k : BitVec 17) : Instr :=
  (firstRow unpackRows k).getD (.pwAfterTerm (unpackKeyWord k))

/-- The class of an encoder input element (30_encoding.md R78): the fixed patterns, then the shortcut map.
The patterns are over 16 bits (R79); an element with a bit above them, from a wider port, is `c ≥ 1024`. -/
def decodeZscii (sc : ShortcutMap) (c : Nat) : Instr :=
  if 2 ^ 16 ≤ c then .encOor c
  else
    match firstRow encoderRows (BitVec.ofNat 16 c) with
    | some i => i
    | none =>
      match scGet sc (zsciiOfInput c) with
      | some (.one z) => .encSc1 (zsciiOfInput c) z
      | some (.two shift z) => .encSc2 (zsciiOfInput c) shift z
      | none => .encEsc (zsciiOfInput c)

/-- A command byte (30_encoding.md R85). The table covers every byte: `firstRow` is never `none` here. -/
def decodeCommand (b : BitVec 8) : Instr := (firstRow commandRows b).getD (.reserved b)

/-- The decoder: the instruction a word of any format selects, under the shortcut map in force. -/
def decode (sc : ShortcutMap) : CodeWord → Except DecodeError Instr
  | .key k => decodeKey k
  | .unpackKey k => .ok (decodeUnpackKey k)
  | .zscii c => .ok (decodeZscii sc c)
  | .cmd b => .ok (decodeCommand b)

/-- The encoder: the word of a well-formed instruction. -/
def encode : Instr → CodeWord
  | .zcEscHi alph z => .key (zcharKey 1 alph z)
  | .zcEscLo alph z => .key (zcharKey 2 alph z)
  | .zcSpace alph => .key (zcharKey 0 alph 0)
  | .zcRsv alph z => .key (zcharKey 0 alph z)
  | .zcShiftA1 alph => .key (zcharKey 0 alph 4)
  | .zcShiftA2 alph => .key (zcharKey 0 alph 5)
  | .zcEscape => .key (zcharKey 0 2 6)
  | .zcLit alph z => .key (zcharKey 0 alph z)
  | .pwAfterTerm word => .unpackKey (unpackKey true word)
  | .pwMid z0 z1 z2 => .unpackKey (unpackKey false (packWord false z0 z1 z2))
  | .pwFinal z0 z1 z2 => .unpackKey (unpackKey false (packWord true z0 z1 z2))
  | .encSpace => .zscii 0x0020
  | .encSc1 c _ => .zscii c.toNat
  | .encSc2 c _ _ => .zscii c.toNat
  | .encEsc c => .zscii c.toNat
  | .encOor c => .zscii c
  | .configure alt => .cmd (commandByte alt 0)
  | .encZ => .cmd (commandByte false 1)
  | .decZ => .cmd (commandByte false 2)
  | .pack => .cmd (commandByte false 3)
  | .unpack => .cmd (commandByte false 4)
  | .encodeZ => .cmd (commandByte false 5)
  | .decodeZ => .cmd (commandByte false 6)
  | .reserved cmd => .cmd cmd

/-- The shortcut map selects the encoder class of `i`: `SC(c) = [z]`, `SC(c) = [shift, z]` or
`SC(c) = none` (30_encoding.md R78). Other instructions are selected by their word alone. -/
def selectedBy (sc : ShortcutMap) : Instr → Bool
  | .encSc1 c z => scGet sc c == some (.one z)
  | .encSc2 c shift z => scGet sc c == some (.two shift z)
  | .encEsc c => scGet sc c == none
  | .zcEscHi _ _ | .zcEscLo _ _ | .zcSpace _ | .zcRsv _ _ | .zcShiftA1 _ | .zcShiftA2 _ | .zcEscape | .zcLit _ _ => true
  | .pwAfterTerm _ | .pwMid _ _ _ | .pwFinal _ _ _ | .encSpace | .encOor _ => true
  | .configure _ | .encZ | .decZ | .pack | .unpack | .encodeZ | .decodeZ | .reserved _ => true

/-- The word of spec/opcode_table.json's numbering, `nbits` wide, as a word of its format: 8 bits a
command byte, up to 16 bits a decode key or an encoder element, up to 24 bits an unpack key. The table
numbers two formats in 16 bits; a value below 0x200 is read as a decode key but for 0x0020, the fixed
pattern of `ENC_SPACE`. DESIGN CHOICE, log 13. -/
def tableWord (nbits w : Nat) : Option CodeWord :=
  if 2 ^ nbits ≤ w then none
  else if nbits ≤ 8 then some (.cmd (BitVec.ofNat 8 w))
  else if nbits ≤ 16 then
    if w < 0x200 ∧ w ≠ 0x0020 then some (.key (BitVec.ofNat 9 w)) else some (.zscii w)
  else if w < 0x20000 then some (.unpackKey (BitVec.ofNat 17 w))
  else none

/-- The instruction the decoder reads from a word of the opcode table, under the reset shortcut map. -/
def decodeTableWord (nbits w : Nat) : Option Instr :=
  match tableWord nbits w with
  | none => none
  | some word =>
    match decode (deriveShortcuts defaultAlphabet) word with
    | .ok i => some i
    | .error _ => none

end Sys2Proof
end

