-- ==== Sys2Proof/Machine/Port.lean ====
section
/-! DEFINITION. The host's side of the block: presenting a request, reset, accepting a request, and what the
running stage reads next (30_encoding.md R86, R93, R94; 70_reset_and_hazards.md R260, R264). -/

namespace Sys2Proof.Machine

/-! ### What the host does -/

/-- The host presents a request; it waits behind those already waiting (70_reset_and_hazards.md R264). -/
def State.post (r : Request) (s : State) : State := { s with requests := s.requests ++ [r] }

/-- Reset, at any time (70_reset_and_hazards.md R260): the operation in progress is abandoned without a
response. Requests still waiting at the port and responses already given are the host's. DEDUCED, log 15. -/
def State.assertReset (s : State) : State :=
  { State.resetWith s.params with requests := s.requests, responses := s.responses }

/-! ### What the block does with its port and its input buffer -/

/-- The engine takes the oldest waiting request. It does so only between requests (R264), and this is all
there is to returning from an error (60_exceptions.md R235). -/
def acceptRequest (r : Request) (rest : List Request) (s : State) : State :=
  { s with request := r, requests := rest }

/-- What a step finds to do. -/
inductive Fetched where
  /-- A word that selects an instruction, and the state it runs in. -/
  | word (w : CodeWord) (s : State)
  /-- A step with no row of the opcode table: an element of the packer, the end of a stage, or an idle block
  with nothing to do (60_exceptions.md R246). -/
  | internal (s : State)
  /-- A half word at the end of the unpacker's input. -/
  | splitWord

/-- An idle block: the oldest waiting request's command byte, or nothing to do. -/
def fetchRequest (s : State) : Fetched :=
  match s.requests with
  | [] => .internal s
  | r :: rest => .word (.cmd r.cmd) (acceptRequest r rest s)

/-- The unpacker: a word of two bytes at `IDX`, under `TERM_SEEN` (30_encoding.md R75; 20_memory.md R54, R58). -/
def fetchPackedWord (high : Elem) (s : State) : Fetched :=
  match memReadNext s with
  | some low => .word (.unpackKey (unpackKey s.work.termSeen (wordOfBytes high.toByte low.toByte))) s
  | none => .splitWord

/-- The running stage: the element at `IDX`, as the word its engine selects by (30_encoding.md R71, R75, R78). -/
def fetchElement (e : Elem) (s : State) : Fetched :=
  match s.engine with
  | .idle => .internal s
  | .encoder _ => .word (.zscii (zsciiPort s.params.zsciiInW e)) s
  | .decoder _ => .word (.key (zcharKey s.work.phase s.work.alph e.toZchar)) s
  | .packer => .internal (packElement e.toZchar s)
  | .unpacker _ => fetchPackedWord e s

/-- What the next step finds to do. -/
def fetch (s : State) : Fetched :=
  match s.engine with
  | .idle => fetchRequest s
  | .encoder _ | .decoder _ | .packer | .unpacker _ =>
    match memRead s with
    | none => .internal (finishStage s)
    | some e => fetchElement e s

/-! ### The notation for requests (30_encoding.md R93) and its pseudo-operations (R94) -/

/-- A request line: an operation name and its typed arguments. -/
inductive RequestLine where
  | configure (version : Nat) (alpha : Option (List Zscii))
  | encZ (zscii : List Nat)
  | decZ (zchars : List Zchar)
  | pack (zchars : List Zchar)
  | unpack (bytes : List Byte)
  | encodeZ (zscii : List Nat)
  | decodeZ (bytes : List Byte)
  deriving DecidableEq, Repr

/-- The request a line stands for. `CONFIGURE` with an alphabet sets `ALT`; every other line has `ALT = 0`
and `RSV = 0` (30_encoding.md R93). -/
def RequestLine.request : RequestLine → Request
  | .configure version none => { cmd := commandByte false 0, version := version, data := [] }
  | .configure version (some alpha) =>
    { cmd := commandByte true 0, version := version, data := alpha.map Elem.ofZscii }
  | .encZ zscii => { cmd := commandByte false 1, version := 0, data := zscii }
  | .decZ zchars => { cmd := commandByte false 2, version := 0, data := zchars.map Elem.ofZchar }
  | .pack zchars => { cmd := commandByte false 3, version := 0, data := zchars.map Elem.ofZchar }
  | .unpack bytes => { cmd := commandByte false 4, version := 0, data := bytes.map Elem.ofByte }
  | .encodeZ zscii => { cmd := commandByte false 5, version := 0, data := zscii }
  | .decodeZ bytes => { cmd := commandByte false 6, version := 0, data := bytes.map Elem.ofByte }

/-- The pseudo-operation `DEFAULTS` (30_encoding.md R94). -/
def defaultsLine : RequestLine := .configure 5 none

/-- The second request of the pseudo-operation `ROUNDTRIP zscii=[s]`, after the response to
`ENCODE_Z zscii=[s]`: none if that failed (30_encoding.md R94). -/
def roundTripSecond (first : Response) : Option RequestLine :=
  if first.status = 0 then some (.decodeZ (first.out.map Elem.toByte)) else none

end Sys2Proof.Machine
end

