-- ==== Sys2Proof/Machine/Step.lean ====
section
/-! DEFINITION. One step of the block: it takes the next request when idle, else it consumes one element of the
running stage's input (two bytes in the unpacker), or ends the stage (10_state.md R41; 70_reset_and_hazards.md R272). -/

namespace Sys2Proof.Machine

/-- One step. -/
def step (s : State) : Host.Outcome State Fault Refusal :=
  match fetch s with
  | .internal t => .next t
  | .splitWord => .refused .splitWord
  | .word w t =>
    match decode t.config.sc w with
    | .ok i => exec i t
    | .error .unreachableKey => .refused .unreachableKey

/-- The state in which the next step fetches the word `w`: for a command byte an idle block with that
request first in line, for the other formats a running stage with that element next. Log 14. -/
def State.withWord (s : State) : CodeWord → State
  | .cmd b =>
    { s with
      engine := .idle
      requests :=
        { cmd := b, version := supportedVersion
          data := if commandAlt b then s.params.defaultAlphabet.toList.map Elem.ofZscii else [] } :: s.requests }
  | .zscii c => { s with engine := .encoder false, work.input := [c], work.idx := 0 }
  | .key k =>
    { s with
      engine := .decoder .strict
      work.phase := keyPhase k
      work.alph := keyAlph k
      work.input := [Elem.ofZchar (keyZchar k)]
      work.idx := 0 }
  | .unpackKey k =>
    { s with
      engine := .unpacker false
      work.termSeen := unpackKeyTermSeen k
      work.input :=
        [Elem.ofByte (wordHighByte (unpackKeyWord k)), Elem.ofByte (wordLowByte (unpackKeyWord k))]
      work.idx := 0 }

/-- `s` with the opcode table's word `w` of `nbits` bits where the next step fetches; `s` itself where the
table numbers no such word. -/
def State.withFetchWord (s : State) (nbits w : Nat) : State :=
  match tableWord nbits w with
  | some word => s.withWord word
  | none => s

end Sys2Proof.Machine
end

