-- ==== Sys2Proof/Reference.lean ====
section
/-! DEFINITION. Every operation as a function from its input to its result (00_scope.md R13), written over whole
sequences and not step by step: the clear definitions that the machine's runs are stated to agree with.
No file of the machine imports this one. -/

namespace Sys2Proof.Reference

open Machine

/-- `Result = ok(out) | err(kind, info)` (00_scope.md R13): an error carries no output. -/
inductive Result (α : Type) where
  | ok (out : List α)
  | err (kind : ErrorKind) (value : BitVec 16) (alph : BitVec 2) (pos : Nat)
  deriving DecidableEq, Repr

/-- `r` with `before` in front of its output, if it has one. -/
def Result.after {α : Type} (before : List α) : Result α → Result α
  | .ok out => .ok (before ++ out)
  | .err kind value alph pos => .err kind value alph pos

/-- The second stage of a composed operation, run on the whole output of the first (44_composed.md R216). -/
def Result.andThen {α β : Type} (first : Result α) (second : List α → Result β) : Result β :=
  match first with
  | .ok out => second out
  | .err kind value alph pos => .err kind value alph pos

/-- The response that carries a result (30_encoding.md R86; 60_exceptions.md R231). -/
def Result.response {α : Type} (warn : Bool) (lane : α → Elem) : Result α → Response
  | .ok out => { status := 0, errValue := 0, errAlph := 0, errPos := 0, warn := warn, out := out.map lane }
  | .err kind value alph pos =>
    { status := statusCode kind, errValue := value, errAlph := alph, errPos := pos, warn := warn, out := [] }

/-! ### The encoder -/

/-- The Z-chars of a shortcut. -/
def Shortcut.zchars : Shortcut → List Zchar
  | .one z => [z]
  | .two shift z => [shift, z]

/-- The Z-chars of one codepoint below 1024 (30_encoding.md R78, R91). -/
def zcharsOf (sc : ShortcutMap) (c : Nat) : List Zchar :=
  if c = 0x0020 then [0]
  else
    match scGet sc (zsciiOfInput c) with
    | some s => Shortcut.zchars s
    | none => [5, 6, escapeHigh (zsciiOfInput c), escapeLow (zsciiOfInput c)]

/-- `ENC_Z` (41_encoder.md R130, R136, R138): the first element of 1024 or more is the error; without one,
the elements' sequences one after another. -/
def encZ (sc : ShortcutMap) (data : List Nat) : Result Zchar :=
  match data.findIdx? (fun c => 1024 ≤ c) with
  | some i => .err .zsciiCodepointOutOfRange (errValueOfInput (data.getD i 0)) 0 i
  | none => .ok (data.flatMap (zcharsOf sc))

/-! ### The decoder -/

/-- The decoder as the source's transition table has it, its escape one step over "the next two Z-chars"
(42_decoder.md R163): `alph` is the pending alphabet, `pos` the index of the next Z-char. -/
def zdecodeFrom (table : AlphabetTable) (mode : EndMode) (alph : BitVec 2) (pos : Nat) :
    List Zchar → Result Zscii
  | [] => if alph ≠ 0 ∧ mode = .strict then .err .truncatedInput 0 0 pos else .ok []
  | z :: rest =>
    if z = 0 then (zdecodeFrom table mode 0 (pos + 1) rest).after [0x020]
    else if z = 1 ∨ z = 2 ∨ z = 3 then .err .unknownZchar (z.setWidth 16) alph pos
    else if z = 4 then zdecodeFrom table mode 1 (pos + 1) rest
    else if z = 5 then zdecodeFrom table mode 2 (pos + 1) rest
    else if z = 6 ∧ alph = 2 then
      match rest with
      | high :: low :: rest' => (zdecodeFrom table mode 0 (pos + 3) rest').after [escapeCodepoint high low]
      | _ => .err .truncatedEscape 0 0 (pos + 1 + rest.length)
    else
      (zdecodeFrom table mode 0 (pos + 1) rest).after [(alphaEntry table (26 * alph.toNat + (z.toNat - 6))).getD 0]

/-- `ZDECODE(data, mode)` (42_decoder.md R150). -/
def zdecode (table : AlphabetTable) (mode : EndMode) (data : List Zchar) : Result Zscii :=
  zdecodeFrom table mode 0 0 data

/-! ### The packer and the unpacker -/

/-- A word as its two bytes, high byte first (20_memory.md R54). -/
def wordBytes (final : Bool) (z0 z1 z2 : Zchar) : List Byte :=
  [wordHighByte (packWord final z0 z1 z2), wordLowByte (packWord final z0 z1 z2)]

/-- `PACK` (43_packer.md R181 to R184): groups of three in input order; the last is padded with Z-char 5, and
it alone carries the marker. -/
def packZ : List Zchar → List Byte
  | [] => []
  | [a] => wordBytes true a 5 5
  | [a, b] => wordBytes true a b 5
  | [a, b, c] => wordBytes true a b c
  | a :: b :: c :: d :: rest => wordBytes false a b c ++ packZ (d :: rest)

/-- The words of an even number of bytes from offset `pos` on (43_packer.md R192, R193). -/
def unpackFrom (termSeen : Bool) (pos : Nat) : List Byte → Result Zchar
  | high :: low :: rest =>
    let n := wordOfBytes high low
    if termSeen then .err .trailingDataAfterTerminator 0 0 pos
    else (unpackFrom (wordMarker n) (pos + 2) rest).after [wordZ0 n, wordZ1 n, wordZ2 n]
  | _ => .ok []

/-- `UNPACK` (43_packer.md R190, R191). -/
def unpackZ (data : List Byte) : Result Zchar :=
  if data.length % 2 = 1 then .err .oddLengthInput 0 0 data.length else unpackFrom false 0 data

/-! ### The composed operations -/

/-- `ENCODE_Z` (44_composed.md R210). -/
def encodeZ (sc : ShortcutMap) (data : List Nat) : Result Byte :=
  (encZ sc data).andThen fun zchars => .ok (packZ zchars)

/-- `DECODE_Z` (44_composed.md R215). -/
def decodeZ (table : AlphabetTable) (data : List Byte) : Result Zscii :=
  (unpackZ data).andThen (zdecode table .lenient)

/-! ### Packed strings -/

/-- The words of a byte sequence of even length. -/
def wordsOf : List Byte → List PackedWord
  | high :: low :: rest => wordOfBytes high low :: wordsOf rest
  | _ => []

/-- A well-formed packed string (30_encoding.md R77): even length, and the marker on the last word and on no
other. -/
def wellFormedPacked (data : List Byte) : Prop :=
  data.length % 2 = 0 ∧ (∀ n ∈ (wordsOf data).dropLast, wordMarker n = false) ∧
    ∀ n ∈ (wordsOf data).getLast?, wordMarker n = true

end Sys2Proof.Reference
end

