-- ==== Sys2Proof/Safety.lean ====
section
/-! DEFINITION. What claims about runs are stated in: an idle block ready for a request, serving one request,
and the invariant of every reachable state. -/

namespace Sys2Proof.Safety

open Machine

/-! ### Serving one request -/

/-- The block is idle and no request waits. -/
def Ready (s : State) : Prop := s.engine = .idle ∧ s.requests = []

/-- Steps enough for a request of `n` elements (70_reset_and_hazards.md R272). The longest operation is
`ENCODE_Z` with every element escaped: one step to accept, `n` elements, the end of the first stage, `4 * n`
Z-chars, the end of the second. -/
def stepBound (n : Nat) : Nat := 5 * n + 3

/-- The block from `s`, given the request `r` and steps enough to serve it. An idle block with nothing to do
stays as it is, so steps left over change nothing. -/
def serve (r : Request) (s : State) : Host.Outcome State Fault Refusal :=
  Host.Core.run Sys2Proof.core (stepBound r.data.length) (s.post r)

/-- The response state that a response shows (10_state.md R35). -/
def responseState (p : Response) : ResponseState :=
  { status := p.status, errValue := p.errValue, errAlph := p.errAlph, errPos := p.errPos }

/-- From `s` the block serves `r` with the one response `p`, is ready again, and has changed neither its
configuration nor its parameters. -/
def Answers (s : State) (r : Request) (p : Response) : Prop :=
  ∃ t, serve r s = .next t ∧ Ready t ∧ t.responses = s.responses ++ [p] ∧ t.response = responseState p ∧
    t.config = s.config ∧ t.params = s.params

/-! ### The invariant -/

/-- 10_state.md R32 to R34. -/
def ConfigInv (c : Configuration) : Prop :=
  c.sc = deriveShortcuts c.alpha ∧ c.cfgVersion = 5 ∧ c.warnA2s0 = decide (c.alpha[52] ≠ 0x000)

/-- `STATUS` is never one of the codes 3, 4, 5, 14 and 15; after a success the error fields are 0; `ERR_ALPH`
is 0 but for `UnknownZchar`, and never 3 (10_state.md R35 to R37; 60_exceptions.md R231). -/
def ResponseInv (r : ResponseState) : Prop :=
  r.status ∉ [3#4, 4#4, 5#4, 14#4, 15#4] ∧
    (r.status = 0 → r.errValue = 0 ∧ r.errAlph = 0 ∧ r.errPos = 0) ∧ (r.status ≠ 8 → r.errAlph = 0) ∧
    r.errAlph ≠ 3

/-- A response given is a legal one, and an error carries no output (20_memory.md R61; 60_exceptions.md R233). -/
def GivenInv (p : Response) : Prop := ResponseInv (responseState p) ∧ (p.status ≠ 0 → p.out = [])

/-- What the running stage keeps of its registers and buffers: the cursor stays inside the input (10_state.md
R41), every output element fits its type (20_memory.md R52; 41_encoder.md R140; 42_decoder.md R168), an escape
is only entered from A2 (42_decoder.md R157), the packer's group holds what is left over (43_packer.md R181), and
the unpacker stays on even offsets (20_memory.md R58). -/
def EngineInv : Engine → WorkingState → Prop
  | .idle, w => w.out = []
  | .encoder _, w => w.idx ≤ w.input.length ∧ ∀ e ∈ w.out, e < 32
  | .decoder _, w =>
    w.idx ≤ w.input.length ∧ (∀ e ∈ w.out, e < 1024) ∧ (w.phase ≠ phaseNormal → w.alph = 2)
  | .packer, w =>
    w.idx ≤ w.input.length ∧ (∀ e ∈ w.out, e < 256) ∧ w.gcnt.val = w.idx % 3 ∧
      w.out.length = 2 * (w.idx / 3)
  | .unpacker _, w =>
    w.idx ≤ w.input.length ∧ (∀ e ∈ w.out, e < 32) ∧ w.input.length % 2 = 0 ∧ w.idx % 2 = 0 ∧
      w.out.length = 3 * (w.idx / 2)

/-- The invariant of every reachable state. -/
def Inv (s : State) : Prop :=
  ConfigInv s.config ∧ ResponseInv s.response ∧ (∀ p ∈ s.responses, GivenInv p) ∧
    (s.work.alph ≠ 3 ∧ s.work.phase ≠ 3) ∧ EngineInv s.engine s.work

end Sys2Proof.Safety
end

