-- ==== Sys2Proof/Certificates/Slice0/Obligations.lean ====
section
/-! DEFINITION. The statements for the provers. Each docstring names the rules of spec/ it formalises. -/

namespace Sys2Proof.Claims

open Machine Reference

/-- The error information of a response state, by its status code (60_exceptions.md R231). -/
abbrev failed (kind : ErrorKind) (value : BitVec 16) (alph : BitVec 2) (pos : Nat) : ResponseState :=
  { status := statusCode kind, errValue := value, errAlph := alph, errPos := pos }

/-- `t` is `s` after a response with the response state `r` and output `out`: the engine is idle, `OUT` is
gone, and of everything else only the response state and the list of given responses have changed. -/
def Responded (s t : State) (r : ResponseState) (out : List Elem) : Prop :=
  t = { s with
        response := r
        work.out := []
        engine := .idle
        responses := s.responses ++
          [{ status := r.status, errValue := r.errValue, errAlph := r.errAlph, errPos := r.errPos,
             warn := s.config.warnA2s0, out := out }] }

/-- `t` is `s` after a step that consumes `n` input elements and emits `vs`: nothing else has changed. -/
def Emitted (s t : State) (n : Nat) (vs : List Elem) : Prop :=
  t = { s with work.out := s.work.out ++ vs, work.idx := s.work.idx + n }

/-- `t` is `s` after a decoder step that emits `vs` and leaves `ALPH` and `PHASE` at the given values. -/
def DecoderStepped (s t : State) (vs : List Elem) (alph phase : BitVec 2) : Prop :=
  t = { s with
        work.out := s.work.out ++ vs
        work.idx := s.work.idx + 1
        work.alph := alph
        work.phase := phase }

/-- `t` is `s` with a stage started on `input`, its own registers apart. -/
def Started (s t : State) (engine : Engine) (input : List Elem) : Prop :=
  t.engine = engine ∧ t.work.input = input ∧ t.work.idx = 0 ∧ t.work.out = [] ∧ t.params = s.params ∧
    t.config = s.config ∧ t.response = s.response ∧ t.request = s.request ∧ t.requests = s.requests ∧
    t.responses = s.responses

/-- The running stage reads the element `e` next. -/
def Reads (s : State) (e : Elem) : Prop := s.work.input[s.work.idx]? = some e

end Sys2Proof.Claims

open Sys2Proof Sys2Proof.Machine Sys2Proof.Reference Sys2Proof.Safety Sys2Proof.Claims

/-! ### Encodings -/

/-- Words written out from 30_encoding.md R72, R75, R78 and R85 decode to the instructions they stand for. -/
def Obligations.TableWordsDecode : Prop :=
  ∀ sc : ShortcutMap,
    decode sc (.key 0b01_10_11111) = .ok (.zcEscHi 2 31) ∧
    decode sc (.key 0b10_10_00100) = .ok (.zcEscLo 2 4) ∧
    decode sc (.key 0b00_01_00000) = .ok (.zcSpace 1) ∧
    decode sc (.key 0b00_10_00011) = .ok (.zcRsv 2 3) ∧
    decode sc (.key 0b00_10_00110) = .ok .zcEscape ∧
    decode sc (.key 0b00_01_00110) = .ok (.zcLit 1 6) ∧
    decode sc (.unpackKey 0b0_1_00110_00101_00101) = .ok (.pwFinal 6 5 5) ∧
    decode sc (.unpackKey 0b1_0_00000_00000_00000) = .ok (.pwAfterTerm 0) ∧
    decode sc (.zscii 0x0020) = .ok .encSpace ∧
    decode sc (.zscii 0x0400) = .ok (.encOor 0x0400) ∧
    decode sc (.cmd 0b0000_1_000) = .ok (.configure true) ∧
    decode sc (.cmd 0b0000_0_110) = .ok .decodeZ

/-- Decoding the word of a well-formed instruction gives it back, with every operand; the encoder's three
shortcut classes are selected by the shortcut map, which must therefore agree with the instruction. -/
def Obligations.DecodeOfEncode : Prop :=
  ∀ (sc : ShortcutMap) (i : Instr), WellFormed i → selectedBy sc i = true → decode sc (encode i) = .ok i

/-- Under the shortcut map of any table, every word that decodes is the encoding of what it decodes to, and
that instruction is well formed: each word has one meaning. -/
def Obligations.EncodeOfDecode : Prop :=
  ∀ (table : AlphabetTable) (w : CodeWord) (i : Instr),
    decode (deriveShortcuts table) w = .ok i →
      encode i = w ∧ WellFormed i ∧ selectedBy (deriveShortcuts table) i = true

/-- 30_encoding.md R72: with `PHASE ≤ 2` and `ALPH ≤ 2` exactly one row matches; the keys that no row matches are
those with `PHASE = 3` and the key `PHASE = 0, ALPH = 3, z = 6`. -/
def Obligations.KeyRowsPartitionReachableKeys : Prop :=
  (∀ k : BitVec 9, keyPhase k ≤ 2 → keyAlph k ≤ 2 → (keyRows.filter fun r => r.matches k).length = 1) ∧
    ∀ k : BitVec 9, decodeKey k = .error .unreachableKey ↔
      keyPhase k = 3 ∨ (keyPhase k = 0 ∧ keyAlph k = 3 ∧ keyZchar k = 6)

/-- 30_encoding.md R75: the three rows with their masks, each key matched by exactly one of them, and the action
each selects. -/
def Obligations.UnpackRowsPartitionAllKeys : Prop :=
  (unpackRows.map fun r => (r.mask, r.value)) =
      [(0x10000, 0x10000), (0x18000, 0x00000), (0x18000, 0x08000)] ∧
    (∀ k : BitVec 17, (unpackRows.filter fun r => r.matches k).length = 1) ∧
    ∀ (termSeen : Bool) (n : PackedWord),
      decodeUnpackKey (BitVec.ofBool termSeen ++ n) =
        if termSeen then .pwAfterTerm n
        else if n.getLsbD 15 then .pwFinal (wordZ0 n) (wordZ1 n) (wordZ2 n)
        else .pwMid (wordZ0 n) (wordZ1 n) (wordZ2 n)

/-- 30_encoding.md R85 and the cases of R89: the fields of the command byte and what each byte selects. -/
def Obligations.CommandByteSelectsOperation : Prop :=
  ∀ (rsv : BitVec 4) (alt : Bool) (op : BitVec 3),
    decodeCommand (rsv ++ BitVec.ofBool alt ++ op) =
      if op = 7 ∨ rsv ≠ 0 ∨ (alt = true ∧ op ≠ 0) then .reserved (rsv ++ BitVec.ofBool alt ++ op)
      else if op = 0 then .configure alt
      else if op = 1 then .encZ
      else if op = 2 then .decZ
      else if op = 3 then .pack
      else if op = 4 then .unpack
      else if op = 5 then .encodeZ
      else .decodeZ

/-- 30_encoding.md R78 and R79: the class of an encoder input element, of a port of any width (00_scope.md R8), under
any shortcut map. -/
def Obligations.EncoderClassSelection : Prop :=
  ∀ (sc : ShortcutMap) (c : Nat),
    decodeZscii sc c =
      if c = 0x0020 then .encSpace
      else if c < 1024 then
        match scGet sc (BitVec.ofNat 10 c) with
        | some (.one z) => .encSc1 (BitVec.ofNat 10 c) z
        | some (.two shift z) => .encSc2 (BitVec.ofNat 10 c) shift z
        | none => .encEsc (BitVec.ofNat 10 c)
      else .encOor c

/-! ### Steps -/

/-- A step runs the instruction that the word next in line decodes to: for an idle block the oldest waiting
request's command, in the state that has taken the request; for a running stage the element at `IDX`, as the
word its engine selects by (30_encoding.md R71, R75, R78, R85; 20_memory.md R54); the encoder's port gives the bits it
has (00_scope.md R8). -/
def Obligations.StepRunsDecodedInstruction : Prop :=
  ∀ (s : State) (i : Instr),
    (∀ r rest, s.engine = .idle → s.requests = r :: rest → decode s.config.sc (.cmd r.cmd) = .ok i →
      step s = exec i { s with request := r, requests := rest }) ∧
    (∀ b e, s.engine = .encoder b → Reads s e →
      decode s.config.sc (.zscii (e % 2 ^ s.params.zsciiInW)) = .ok i → step s = exec i s) ∧
    (∀ m e, s.engine = .decoder m → Reads s e →
      decode s.config.sc (.key (s.work.phase ++ s.work.alph ++ BitVec.ofNat 5 e)) = .ok i → step s = exec i s) ∧
    (∀ b high low, s.engine = .unpacker b → Reads s high → s.work.input[s.work.idx + 1]? = some low →
      decode s.config.sc
        (.unpackKey (BitVec.ofBool s.work.termSeen ++ (BitVec.ofNat 8 high ++ BitVec.ofNat 8 low : BitVec 16))) = .ok i →
      step s = exec i s)

/-- The steps that run no instruction: an idle block with nothing to do stays as it is (60_exceptions.md R246), the
packer takes one Z-char (43_packer.md R180), and a stage at the end of its input is finished. -/
def Obligations.StepsWithoutInstruction : Prop :=
  ∀ s : State,
    (Ready s → step s = .next s) ∧
    (∀ e, s.engine = .packer → Reads s e → step s = .next (packElement (BitVec.ofNat 5 e) s)) ∧
    (s.engine ≠ .idle → s.work.input.length ≤ s.work.idx → step s = .next (finishStage s))

/-- 93_implementation_defined.md U3: the keys that match no row are refused, and so is a literal whose key has
`ALPH = 3`. -/
def Obligations.UnreachableKeysAreRefused : Prop :=
  (∀ (s : State) (m : EndMode) (e : Elem), s.engine = .decoder m → Reads s e →
      s.work.phase = 3 ∨ (s.work.phase = 0 ∧ s.work.alph = 3 ∧ BitVec.ofNat 5 e = 6#5) →
      step s = .refused .unreachableKey) ∧
    ∀ (s : State) (z : Zchar), 6 ≤ z → exec (.zcLit 3 z) s = .refused .unreachableKey

/-! ### The encoder's instructions -/

/-- What `ENC_SPACE`, `ENC_SC1`, `ENC_SC2` and `ENC_ESC` append, in every state; nothing else changes but `IDX`. -/
def Obligations.EncoderInstructionsEmit : Prop :=
  ∀ s : State,
    (∃ t, exec .encSpace s = .next t ∧ Emitted s t 1 [0]) ∧
    (∀ c z, ∃ t, exec (.encSc1 c z) s = .next t ∧ Emitted s t 1 [z.toNat]) ∧
    (∀ c shift z, ∃ t, exec (.encSc2 c shift z) s = .next t ∧ Emitted s t 1 [shift.toNat, z.toNat]) ∧
    ∀ c : Zscii, ∃ t, exec (.encEsc c) s = .next t ∧
      Emitted s t 1 [5, 6, (c.extractLsb' 5 5).toNat, (c.extractLsb' 0 5).toNat]

/-- 41_encoder.md R132. -/
def Obligations.SpaceAppendsZcharZero : Prop :=
  ∀ (s : State) (b : Bool), s.engine = .encoder b → Reads s 0x0020 →
    ∃ t, step s = .next t ∧ Emitted s t 1 [0]

/-- 41_encoder.md R133. -/
def Obligations.OneZcharShortcutStep : Prop :=
  ∀ (s : State) (b : Bool) (c : Nat) (z : Zchar),
    s.engine = .encoder b → s.config.sc = deriveShortcuts s.config.alpha → Reads s c →
    c < 1024 → c ≠ 0x0020 → scGet s.config.sc (BitVec.ofNat 10 c) = some (.one z) →
    (∃ t, step s = .next t ∧ Emitted s t 1 [z.toNat]) ∧
    ∃ j : Fin 26, z.toNat = 6 + j.val ∧ s.config.alpha[j.val] = BitVec.ofNat 10 c ∧
      ∀ i : Fin 26, i < j → s.config.alpha[i.val] ≠ BitVec.ofNat 10 c

/-- 41_encoder.md R134. -/
def Obligations.TwoZcharShortcutStep : Prop :=
  ∀ (s : State) (b : Bool) (c : Nat) (shift z : Zchar),
    s.engine = .encoder b → s.config.sc = deriveShortcuts s.config.alpha → Reads s c →
    c < 1024 → scGet s.config.sc (BitVec.ofNat 10 c) = some (.two shift z) →
    (∃ t, step s = .next t ∧ Emitted s t 1 [shift.toNat, z.toNat]) ∧
    ∃ j : Fin 26, z.toNat = 6 + j.val ∧
      ((shift = 4 ∧ s.config.alpha[26 + j.val]? = some (BitVec.ofNat 10 c)) ∨
        (shift = 5 ∧ 1 ≤ j.val ∧ s.config.alpha[52 + j.val]? = some (BitVec.ofNat 10 c)))

/-- 41_encoder.md R135: the escape, with its corner cases: NUL under the default table, and a codepoint that stands
only at index 52 of a table. -/
def Obligations.EscapeStep : Prop :=
  (∀ (s : State) (b : Bool) (c : Nat),
    s.engine = .encoder b → s.config.sc = deriveShortcuts s.config.alpha → Reads s c →
    c < 1024 → scGet s.config.sc (BitVec.ofNat 10 c) = none →
    ∃ t, step s = .next t ∧ Emitted s t 1 [5, 6, c / 32, c % 32]) ∧
  scGet (deriveShortcuts defaultAlphabet) 0x000 = none ∧
  ∀ (table : AlphabetTable) (c : Zscii), c ≠ 0x020 → (∀ i : Fin 78, table[i] = c → i = 52) →
    scGet (deriveShortcuts table) c = none

/-- 41_encoder.md R136, as a step and as the instruction's meaning, for a port of any width (00_scope.md R8): `ERR_VALUE` is
the element wherever its 16 bits (10_state.md R36) hold it. What it is for a wider element, which only a port of more
than 16 bits presents, the spec does not say (log 5), and neither does this statement. -/
def Obligations.OutOfRangeAbortsEncoder : Prop :=
  ∀ (s : State) (c : Nat), ∃ v : BitVec 16, (c < 2 ^ 16 → v.toNat = c) ∧
    (∃ t, exec (.encOor c) s = .next t ∧ Responded s t (failed .zsciiCodepointOutOfRange v 0 s.work.idx) []) ∧
    ∀ b, s.engine = .encoder b → Reads s c → 1024 ≤ c → c < 2 ^ s.params.zsciiInW →
      ∃ t, step s = .next t ∧ Responded s t (failed .zsciiCodepointOutOfRange v 0 s.work.idx) []

/-! ### The decoder's instructions -/

/-- What the decoder's instructions do in every state: the escape operands, space, the shifts, the escape. -/
def Obligations.DecoderInstructionsStep : Prop :=
  ∀ (s : State) (a : BitVec 2) (z : Zchar),
    (∃ t, exec (.zcEscHi a z) s = .next t ∧
      DecoderStepped { s with work.escHiLatch := z } t [] s.work.alph 2) ∧
    (∃ t, exec (.zcEscLo a z) s = .next t ∧
      DecoderStepped s t [(s.work.escHiLatch ++ z : BitVec 10).toNat] 0 0) ∧
    (∃ t, exec (.zcSpace a) s = .next t ∧ DecoderStepped s t [0x020] 0 s.work.phase) ∧
    (∃ t, exec (.zcShiftA1 a) s = .next t ∧ DecoderStepped s t [] 1 s.work.phase) ∧
    (∃ t, exec (.zcShiftA2 a) s = .next t ∧ DecoderStepped s t [] 2 s.work.phase) ∧
    ∃ t, exec .zcEscape s = .next t ∧ DecoderStepped s t [] s.work.alph 1

/-- 42_decoder.md R158: a literal emits its table entry, as the instruction's meaning for every well-formed literal of a
real alphabet. -/
def Obligations.LiteralEmitsTableEntry : Prop :=
  ∀ (s : State) (a : BitVec 2) (z : Zchar), WellFormed (.zcLit a z) → a ≤ 2 →
    ∃ (hi : 26 * a.toNat + (z.toNat - 6) < 78) (t : State), exec (.zcLit a z) s = .next t ∧
      DecoderStepped s t [(s.config.alpha[26 * a.toNat + (z.toNat - 6)]).toNat] 0 s.work.phase

/-- 42_decoder.md R152 and R155 to R158: what a Z-char does in phase NORMAL, for every pending alphabet: a shift or
space whatever stands in `ALPH`, and a literal for the three alphabets there are (`UnreachableKeysAreRefused` has
the fourth). -/
def Obligations.NormalPhaseTransitions : Prop :=
  ∀ (s : State) (m : EndMode) (e : Elem) (z : Zchar),
    s.engine = .decoder m → Reads s e → z = BitVec.ofNat 5 e → s.work.phase = 0 →
    (z = 0 → ∃ t, step s = .next t ∧ DecoderStepped s t [0x020] 0 0) ∧
    (z = 4 → ∃ t, step s = .next t ∧ DecoderStepped s t [] 1 0) ∧
    (z = 5 → ∃ t, step s = .next t ∧ DecoderStepped s t [] 2 0) ∧
    (z = 6 ∧ s.work.alph = 2 → ∃ t, step s = .next t ∧ DecoderStepped s t [] 2 1) ∧
    (6 ≤ z ∧ ¬(z = 6 ∧ s.work.alph = 2) ∧ s.work.alph ≠ 3 →
      ∃ (hi : 26 * s.work.alph.toNat + (z.toNat - 6) < 78) (t : State), step s = .next t ∧
        DecoderStepped s t [(s.config.alpha[26 * s.work.alph.toNat + (z.toNat - 6)]).toNat] 0 0)

/-- 42_decoder.md R160 and R161: what a Z-char does in the two escape phases, whatever it is. -/
def Obligations.EscapePhaseTransitions : Prop :=
  ∀ (s : State) (m : EndMode) (e : Elem), s.engine = .decoder m → Reads s e →
    (s.work.phase = 1 → ∃ t, step s = .next t ∧
      DecoderStepped { s with work.escHiLatch := BitVec.ofNat 5 e } t [] s.work.alph 2) ∧
    (s.work.phase = 2 → ∃ t, step s = .next t ∧
      DecoderStepped s t [(s.work.escHiLatch ++ BitVec.ofNat 5 e : BitVec 10).toNat] 0 0)

/-- 42_decoder.md R153, as a step and as the instruction's meaning. -/
def Obligations.ReservedZcharAbortsDecoder : Prop :=
  ∀ (s : State) (a : BitVec 2) (z : Zchar),
    (∃ t, exec (.zcRsv a z) s = .next t ∧ Responded s t (failed .unknownZchar (z.setWidth 16) a s.work.idx) []) ∧
    ∀ m e, s.engine = .decoder m → Reads s e → z = BitVec.ofNat 5 e → z = 1 ∨ z = 2 ∨ z = 3 → s.work.phase = 0 →
      ∃ t, step s = .next t ∧
        Responded s t (failed .unknownZchar (z.setWidth 16) s.work.alph s.work.idx) []

/-- 42_decoder.md R162, R164 and R165: the end of a decoding stage's input. -/
def Obligations.DecoderEndOfStream : Prop :=
  ∀ (s : State) (m : EndMode), s.engine = .decoder m → s.work.idx = s.work.input.length →
    (s.work.phase = 1 ∨ s.work.phase = 2 → ∃ t, step s = .next t ∧
      Responded s t (failed .truncatedEscape 0 0 s.work.input.length) []) ∧
    (s.work.phase = 0 ∧ s.work.alph = 0 → ∃ t, step s = .next t ∧
      Responded s t ResponseState.success s.work.out) ∧
    (s.work.phase = 0 ∧ s.work.alph ≠ 0 → ∃ t, step s = .next t ∧
      match m with
      | .strict => Responded s t (failed .truncatedInput 0 0 s.work.input.length) []
      | .lenient => Responded s t ResponseState.success s.work.out)

/-! ### The unpacker's instructions -/

/-- 43_packer.md R192, as the instructions' meanings and as steps: three Z-chars in order, two bytes consumed, and
`TERM_SEEN` set by bit 15 only. -/
def Obligations.UnpackerAppendsThreeZchars : Prop :=
  (∀ (s : State) (z0 z1 z2 : Zchar),
    (∃ t, exec (.pwMid z0 z1 z2) s = .next t ∧
      Emitted s t 2 [z0.toNat, z1.toNat, z2.toNat]) ∧
    ∃ t, exec (.pwFinal z0 z1 z2) s = .next t ∧
      Emitted { s with work.termSeen := true } t 2 [z0.toNat, z1.toNat, z2.toNat]) ∧
  ∀ (s : State) (b : Bool) (high low : Elem) (n : PackedWord),
    s.engine = .unpacker b → Reads s high → s.work.input[s.work.idx + 1]? = some low →
    n = BitVec.ofNat 8 high ++ BitVec.ofNat 8 low → s.work.termSeen = false →
    ∃ t, step s = .next t ∧
      Emitted { s with work.termSeen := n.getLsbD 15 } t 2
        [(n.extractLsb' 10 5).toNat, (n.extractLsb' 5 5).toNat, (n.extractLsb' 0 5).toNat]

/-- 43_packer.md R193, as the instruction's meaning and as a step. -/
def Obligations.TrailingWordAbortsUnpacker : Prop :=
  (∀ (s : State) (n : PackedWord), ∃ t, exec (.pwAfterTerm n) s = .next t ∧
    Responded s t (failed .trailingDataAfterTerminator 0 0 s.work.idx) []) ∧
  ∀ (s : State) (b : Bool) (high low : Elem),
    s.engine = .unpacker b → Reads s high → s.work.input[s.work.idx + 1]? = some low → s.work.termSeen = true →
    ∃ t, step s = .next t ∧ Responded s t (failed .trailingDataAfterTerminator 0 0 s.work.idx) []

/-! ### The commands -/

/-- What a command that runs a stage does at once: the stage starts on the request's data with `OUT` empty, `IDX`
0 and its own registers initialised (10_state.md R40 to R46); its elements are the steps that follow. -/
def Obligations.CommandsStartTheirStage : Prop :=
  ∀ s : State,
    (∃ t, exec .encZ s = .next t ∧ Started s t (.encoder false) s.request.data) ∧
    (∃ t, exec .encodeZ s = .next t ∧ Started s t (.encoder true) s.request.data) ∧
    (∃ t, exec .decZ s = .next t ∧ Started s t (.decoder .strict) s.request.data ∧
      t.work.alph = 0 ∧ t.work.phase = 0) ∧
    (∃ t, exec .pack s = .next t ∧ Started s t .packer s.request.data ∧ t.work.gcnt = 0) ∧
    (s.request.data.length % 2 = 0 →
      (∃ t, exec .unpack s = .next t ∧ Started s t (.unpacker false) s.request.data ∧ t.work.termSeen = false) ∧
      ∃ t, exec .decodeZ s = .next t ∧ Started s t (.unpacker true) s.request.data ∧ t.work.termSeen = false)

/-- 43_packer.md R191: an odd length is refused before any word is read, in both operations that unpack. -/
def Obligations.OddLengthIsRefusedFirst : Prop :=
  ∀ s : State, s.request.data.length % 2 = 1 →
    (∃ t, exec .unpack s = .next t ∧ Responded s t (failed .oddLengthInput 0 0 s.request.data.length) []) ∧
    ∃ t, exec .decodeZ s = .next t ∧ Responded s t (failed .oddLengthInput 0 0 s.request.data.length) []

/-- 60_exceptions.md R238: exactly the reserved bytes are reserved commands, and on an idle block (whose `OUT` is empty)
such a command writes the response and no other state. -/
def Obligations.ReservedCommandResponds : Prop :=
  ∀ (sc : ShortcutMap) (b : BitVec 8),
    (decode sc (.cmd b) = .ok (.reserved b) ↔
      b.extractLsb' 0 3 = 7#3 ∨ b.extractLsb' 4 4 ≠ 0#4 ∨ (b.getLsbD 3 = true ∧ b.extractLsb' 0 3 ≠ 0#3)) ∧
    ∀ s : State, s.engine = .idle → s.work.out = [] →
      exec (.reserved b) s = .next { s with
        response := { status := 12, errValue := b.setWidth 16, errAlph := 0, errPos := 0 }
        responses := s.responses ++
          [{ status := 12, errValue := b.setWidth 16, errAlph := 0, errPos := 0,
             warn := s.config.warnA2s0, out := [] }] }

/-- 40_configure.md R100, R102 and R104: a `CONFIGURE` that passes its checks writes `ALPHA`, `SC` and `WARN_A2S0`, keeps
`CFG_VERSION`, and responds with the new warning. `DEFAULT_ALPHABET` passes them whatever the parameters are (R103;
10_state.md R31). -/
def Obligations.ConfigureLoadsTable : Prop :=
  ∀ (s : State) (alt : Bool) (table : AlphabetTable),
    s.request.version = 5 →
    table.toList = (if alt then s.request.data.map (BitVec.ofNat 10) else s.params.defaultAlphabet.toList) →
    (alt = false ∨ table[52] = 0x000 ∨ s.params.a2Slot0Fatal = false) →
    ∃ t, exec (.configure alt) s = .next t ∧
      Responded
        { s with config :=
            { alpha := table, sc := deriveShortcuts table, cfgVersion := s.config.cfgVersion
              warnA2s0 := decide (table[52] ≠ 0x000) } }
        t ResponseState.success []

/-- 40_configure.md R101, R103, R105, R107 and R108: the checks of `CONFIGURE`, in their order, with their information. -/
def Obligations.ConfigureChecksInOrder : Prop :=
  ∀ (s : State) (alt : Bool) (entries : List Zscii),
    entries = (if alt then s.request.data.map (BitVec.ofNat 10) else s.params.defaultAlphabet.toList) →
    (s.request.version ≠ 5 →
      ∃ t, exec (.configure alt) s = .next t ∧
        Responded s t (failed .unsupportedVersion (BitVec.ofNat 16 s.request.version) 0 0) []) ∧
    (s.request.version = 5 → entries.length ≠ 78 →
      ∃ t, exec (.configure alt) s = .next t ∧
        Responded s t (failed .invalidAlphabetTable (BitVec.ofNat 16 entries.length) 0 0) []) ∧
    ∀ c : Zscii, s.request.version = 5 → entries.length = 78 → entries[52]? = some c → c ≠ 0x000 →
      s.params.a2Slot0Fatal = true →
      ∃ t, exec (.configure alt) s = .next t ∧
        Responded s t (failed .escapeSlotNotNul (c.setWidth 16) 0 0) []

/-- 40_configure.md R106: a `CONFIGURE` that raises an error leaves the configuration exactly as it was. -/
def Obligations.FailedConfigureKeepsConfiguration : Prop :=
  ∀ (s t : State) (alt : Bool), exec (.configure alt) s = .next t → t.response.status ≠ 0 → t.config = s.config

/-! ### The shortcut map -/

/-- 40_configure.md R110 and R113: a codepoint other than space has the shortcut of the lowest index other than 52 at
which the table holds it, and none if there is no such index. -/
def Obligations.ShortcutIsOfLowestIndex : Prop :=
  ∀ (table : AlphabetTable) (c : Zscii), c ≠ 0x020 → ∀ sc : Shortcut,
    scGet (deriveShortcuts table) c = some sc ↔
      ∃ i : Fin 78, i ≠ 52 ∧ table[i] = c ∧ (∀ j : Fin 78, j < i → j ≠ 52 → table[j] ≠ c) ∧
        sc = shortcutOfSlot (i.val / 26) (i.val % 26)

/-- 40_configure.md R112. -/
def Obligations.SpaceShortcutIsFixed : Prop :=
  ∀ table : AlphabetTable, scGet (deriveShortcuts table) 0x020 = some (.one 0)

/-- 40_configure.md R111: index 52 yields no shortcut whatever it holds, and `[5, 6]` is never a shortcut. -/
def Obligations.EscapeMarkerYieldsNoShortcut : Prop :=
  ∀ (table : AlphabetTable) (v c : Zscii),
    deriveShortcuts (table.set 52 v) = deriveShortcuts table ∧
      scGet (deriveShortcuts table) c ≠ some (.two 5 6)

/-- 40_configure.md R114: the reset shortcut map, row by row, and nothing else. -/
def Obligations.DefaultShortcutTable : Prop :=
  let sc := deriveShortcuts defaultAlphabet
  sc.length = 78 ∧ scGet sc 0x20 = some (.one 0) ∧ scGet sc 0x0D = some (.two 5 7) ∧
    (∀ j : Fin 26, scGet sc (BitVec.ofNat 10 (0x61 + j.val)) = some (.one (BitVec.ofNat 5 (6 + j.val))) ∧
      scGet sc (BitVec.ofNat 10 (0x41 + j.val)) = some (.two 4 (BitVec.ofNat 5 (6 + j.val)))) ∧
    (∀ j : Fin 10, scGet sc (BitVec.ofNat 10 (0x30 + j.val)) = some (.two 5 (BitVec.ofNat 5 (8 + j.val)))) ∧
    ([0x2E, 0x2C, 0x21, 0x3F, 0x5F, 0x23, 0x27, 0x22, 0x2F, 0x5C, 0x2D, 0x3A, 0x28, 0x29].map (scGet sc) =
      (List.range 14).map fun j => some (.two 5 (BitVec.ofNat 5 (0x12 + j))))

/-- 40_configure.md R115: decoding a shortcut in STRICT mode gives exactly the codepoint it was derived for. Success in
that mode says that the stage ended in `ALPH = 0` and `PHASE = NORMAL`. -/
def Obligations.ShortcutsDecodeBack : Prop :=
  ∀ (s : State) (c : Zscii) (sc : Shortcut), Ready s → s.config.sc = deriveShortcuts s.config.alpha →
    scGet s.config.sc c = some sc →
    Answers s (RequestLine.decZ (Shortcut.zchars sc)).request
      ((Result.ok [c]).response s.config.warnA2s0 Elem.ofZscii)

/-! ### Whole operations: the machine's run agrees with the operation as a function -/

/-- 41_encoder.md R130, for an input port of any width (00_scope.md R8). -/
def Obligations.EncZRunAgrees : Prop :=
  ∀ (s : State) (data : List (ZsciiIn s.params.zsciiInW)), Ready s →
    Answers s (RequestLine.encZ (data.map BitVec.toNat)).request
      ((encZ s.config.sc (data.map BitVec.toNat)).response s.config.warnA2s0 Elem.ofZchar)

/-- 42_decoder.md R150 and R163: the one-Z-char-a-step machine agrees with the source's two-Z-char escape. -/
def Obligations.DecZRunAgrees : Prop :=
  ∀ (s : State) (data : List Zchar), Ready s →
    Answers s (RequestLine.decZ data).request
      ((zdecode s.config.alpha .strict data).response s.config.warnA2s0 Elem.ofZscii)

/-- 43_packer.md R180 to R187: packing raises no error. -/
def Obligations.PackRunAgrees : Prop :=
  ∀ (s : State) (data : List Zchar), Ready s →
    Answers s (RequestLine.pack data).request
      ((Result.ok (packZ data)).response s.config.warnA2s0 Elem.ofByte)

/-- 43_packer.md R190 to R196. -/
def Obligations.UnpackRunAgrees : Prop :=
  ∀ (s : State) (data : List Byte), Ready s →
    Answers s (RequestLine.unpack data).request
      ((unpackZ data).response s.config.warnA2s0 Elem.ofZchar)

/-- 44_composed.md R210 and R211, for an input port of any width (00_scope.md R8). -/
def Obligations.EncodeZRunAgrees : Prop :=
  ∀ (s : State) (data : List (ZsciiIn s.params.zsciiInW)), Ready s →
    Answers s (RequestLine.encodeZ (data.map BitVec.toNat)).request
      ((Reference.encodeZ s.config.sc (data.map BitVec.toNat)).response s.config.warnA2s0 Elem.ofByte)

/-- 44_composed.md R215 to R218: the first stage runs over the whole buffer before the second starts. -/
def Obligations.DecodeZRunAgrees : Prop :=
  ∀ (s : State) (data : List Byte), Ready s →
    Answers s (RequestLine.decodeZ data).request
      ((Reference.decodeZ s.config.alpha data).response s.config.warnA2s0 Elem.ofZscii)

/-- 70_reset_and_hazards.md R272: whatever the request, an idle block serves it within the steps of `stepBound`, with
exactly one response, and is ready again. -/
def Obligations.EveryRequestIsServed : Prop :=
  ∀ (s : State) (r : Request), Ready s →
    ∃ (t : State) (p : Response), serve r s = .next t ∧ Ready t ∧ t.responses = s.responses ++ [p] ∧
      t.response = responseState p ∧ t.request = r ∧ t.params = s.params

/-! ### Round trips -/

/-- 42_decoder.md R169: what `ENC_Z` makes of codepoints below 1024, the decoder turns back, in both modes. -/
def Obligations.ZcharRoundTrip : Prop :=
  ∀ (s : State) (data : List Zscii), Ready s → s.config.sc = deriveShortcuts s.config.alpha →
    ∃ zchars : List Zchar,
      Answers s (RequestLine.encZ (data.map Elem.ofZscii)).request
        ((Result.ok zchars).response s.config.warnA2s0 Elem.ofZchar) ∧
      Answers s (RequestLine.decZ zchars).request
        ((Result.ok data).response s.config.warnA2s0 Elem.ofZscii) ∧
      zdecode s.config.alpha .lenient zchars = .ok data

/-- 44_composed.md R220: `DECODE_Z` of `ENCODE_Z` of codepoints below 1024 gives them back, padding and all. -/
def Obligations.PackedRoundTrip : Prop :=
  ∀ (s : State) (data : List Zscii), Ready s → s.config.sc = deriveShortcuts s.config.alpha →
    ∃ bytes : List Byte,
      Answers s (RequestLine.encodeZ (data.map Elem.ofZscii)).request
        ((Result.ok bytes).response s.config.warnA2s0 Elem.ofByte) ∧
      Answers s (RequestLine.decodeZ bytes).request
        ((Result.ok data).response s.config.warnA2s0 Elem.ofZscii)

/-- 43_packer.md R197: unpacking what `PACK` produced gives the input and its padding. -/
def Obligations.UnpackOfPack : Prop :=
  ∀ (s : State) (data : List Zchar), Ready s →
    ∃ bytes : List Byte,
      Answers s (RequestLine.pack data).request ((Result.ok bytes).response s.config.warnA2s0 Elem.ofByte) ∧
      Answers s (RequestLine.unpack bytes).request
        ((Result.ok (data ++ List.replicate ((3 - data.length % 3) % 3) 5)).response
          s.config.warnA2s0 Elem.ofZchar)

/-- 43_packer.md R185: `PACK` produces `2 * ceil(N / 3)` bytes that are a well-formed packed string (30_encoding.md R77). -/
def Obligations.PackedStringIsWellFormed : Prop :=
  ∀ data : List Zchar, (packZ data).length = 2 * ((data.length + 2) / 3) ∧ wellFormedPacked (packZ data)

/-- 44_composed.md R221: the stand-alone stages do not round-trip when padding is present. -/
def Obligations.StandAloneStagesRejectPadding : Prop :=
  ∀ (s : State) (data : List Zscii) (zchars : List Zchar), Ready s →
    s.config.sc = deriveShortcuts s.config.alpha →
    encZ s.config.sc (data.map Elem.ofZscii) = .ok zchars → zchars.length % 3 ≠ 0 →
    ∃ padded : List Zchar,
      Answers s (RequestLine.unpack (packZ zchars)).request
        ((Result.ok padded).response s.config.warnA2s0 Elem.ofZchar) ∧
      Answers s (RequestLine.decZ padded).request
        ((Result.err (α := Zscii) .truncatedInput 0 0 padded.length).response s.config.warnA2s0 Elem.ofZscii)

/-- 41_encoder.md R138: encoding two sequences one after another is encoding their concatenation. -/
def Obligations.EncodingIsConcatenative : Prop :=
  ∀ (sc : ShortcutMap) (a b : List Nat),
    (∀ x y, encZ sc a = .ok x → encZ sc b = .ok y → encZ sc (a ++ b) = .ok (x ++ y)) ∧
    ((∃ x, encZ sc (a ++ b) = .ok x) ↔ (∃ x, encZ sc a = .ok x) ∧ ∃ y, encZ sc b = .ok y)

/-- 70_reset_and_hazards.md R267: the concatenation of two non-empty packed outputs is not a packed string. -/
def Obligations.ConcatenatedPacksAreRefused : Prop :=
  ∀ (s : State) (a b : List Zchar), Ready s → a ≠ [] → b ≠ [] →
    Answers s (RequestLine.unpack (packZ a ++ packZ b)).request
      ((Result.err (α := Zchar) .trailingDataAfterTerminator 0 0 (packZ a).length).response
        s.config.warnA2s0 Elem.ofZchar)

/-! ### The whole machine -/

/-- 10_state.md section 5: the values the reset table gives, for every choice of the parameters and for the spec's
defaults. Every `DEFAULT_ALPHABET` has the eleven entries the source fixes, and its three blocks are as described
(10_state.md R31; which codepoints the descriptions mean is the ASCII chart, log 22). -/
def Obligations.ResetState : Prop :=
  (∀ p : Params, (State.resetWith p).config.alpha = p.defaultAlphabet ∧
    (State.resetWith p).config.sc = deriveShortcuts p.defaultAlphabet ∧ (State.resetWith p).config.cfgVersion = 5 ∧
    (State.resetWith p).config.warnA2s0 = false ∧
    (State.resetWith p).response = { status := 0, errValue := 0, errAlph := 0, errPos := 0 }) ∧
  (∀ p : Params, [3, 4, 11, 14, 17, 22, 33, 52, 53, 64, 65].map (alphaEntry (State.resetWith p).config.alpha) =
      [0x64, 0x65, 0x6C, 0x6F, 0x72, 0x77, 0x48, 0x00, 0x0D, 0x2E, 0x2C].map some ∧
    ∀ i : Fin 78,
      let c := (State.resetWith p).config.alpha[i]
      (i < 26 → 0x61 ≤ c ∧ c ≤ 0x7A) ∧ (26 ≤ i ∧ i < 52 → 0x41 ≤ c ∧ c ≤ 0x5A) ∧
        (52 ≤ i → c ≤ 0x7F ∧ c ≠ 0x20 ∧ ¬(0x61 ≤ c ∧ c ≤ 0x7A) ∧ ¬(0x41 ≤ c ∧ c ≤ 0x5A))) ∧
  State.reset = State.resetWith State.reset.params ∧ State.reset.params.a2Slot0Fatal = false ∧
    State.reset.params.defaultAlphabet = defaultAlphabet ∧ State.reset.params.zsciiInW = 16

/-- The invariant holds at reset, for every choice of the parameters, and the block is ready for a request. The reset
values of the working state and of the port are the model's choice (log 7). -/
def Obligations.ResetSatisfiesInvariant : Prop :=
  Inv State.reset ∧ ∀ p : Params, Inv (State.resetWith p) ∧ Ready (State.resetWith p)

/-- Every step keeps the invariant (10_state.md R32 to R34, R40 to R42; 20_memory.md R58, R61; 42_decoder.md R167). -/
def Obligations.StepKeepsInvariant : Prop :=
  ∀ s t : State, Inv s → step s = .next t → Inv t

/-- In every state that meets the invariant the block makes a step: it neither faults nor is refused a meaning
(42_decoder.md R167; 20_memory.md R65). -/
def Obligations.NoStepStops : Prop :=
  ∀ s : State, Inv s → ∃ t, step s = .next t

/-- 10_state.md R49; 20_memory.md R62: no step but a `CONFIGURE` of version 5 changes the configuration, and none changes
the parameters. -/
def Obligations.OnlyConfigureWritesConfiguration : Prop :=
  ∀ s t : State, step s = .next t →
    t.params = s.params ∧
      (t.config = s.config ∨
        ∃ r rest, s.engine = .idle ∧ s.requests = r :: rest ∧ (r.cmd = 0x00 ∨ r.cmd = 0x08) ∧ r.version = 5 ∧
          t.engine = .idle ∧ t.response.status = 0)

/-- 20_memory.md R61: while an operation runs, no step shows the host anything, and the step that ends it gives one
response: the whole output, or an error without output. -/
def Obligations.OperationsAreAtomicToHost : Prop :=
  ∀ s t : State, s.engine ≠ .idle → step s = .next t →
    (t.engine ≠ .idle → t.response = s.response ∧ t.responses = s.responses ∧ t.config = s.config) ∧
    (t.engine = .idle → ∃ p, t.responses = s.responses ++ [p] ∧ t.response = responseState p ∧
      t.config = s.config ∧ (p.status ≠ 0 → p.out = []))

/-- 10_state.md R48, R49; 20_memory.md R63: the response to a request depends on the request and the configuration (and
the parameters), and on nothing else. It does not depend on the width of the encoder's input port where every
element fits both ports (92_eei_decisions.md D4: "the results are the same for every value that fits"). -/
def Obligations.ResponseDependsOnConfigurationOnly : Prop :=
  ∀ (s₁ s₂ : State) (r : Request), Ready s₁ → Ready s₂ → s₁.config = s₂.config →
    s₁.params.a2Slot0Fatal = s₂.params.a2Slot0Fatal → s₁.params.defaultAlphabet = s₂.params.defaultAlphabet →
    (s₁.params.zsciiInW = s₂.params.zsciiInW ∨
      ∀ e ∈ r.data, e < 2 ^ s₁.params.zsciiInW ∧ e < 2 ^ s₂.params.zsciiInW) →
    ∃ (t₁ t₂ : State) (p : Response), serve r s₁ = .next t₁ ∧ serve r s₂ = .next t₂ ∧
      t₁.responses = s₁.responses ++ [p] ∧ t₂.responses = s₂.responses ++ [p] ∧
      t₁.config = t₂.config ∧ t₁.response = t₂.response

/-- 20_memory.md R63: a request repeated gives the same response and leaves the configuration as the first did. -/
def Obligations.OperationsAreIdempotent : Prop :=
  ∀ (s : State) (r : Request), Ready s →
    ∃ (t u : State) (p : Response), serve r s = .next t ∧ serve r t = .next u ∧
      t.responses = s.responses ++ [p] ∧ u.responses = s.responses ++ [p, p] ∧
      u.config = t.config ∧ u.response = t.response

/-- 70_reset_and_hazards.md R264: a request presented while another is in progress waits, neither lost nor merged: a step of
a block that is not idle is the same with it in line, and an idle block takes the oldest request first. -/
def Obligations.WaitingRequestsAreKeptInOrder : Prop :=
  (∀ (s t : State) (r : Request), ¬Ready s → step s = .next t → step (s.post r) = .next (t.post r)) ∧
    ∀ s t : State, step s = .next t →
      (s.engine ≠ .idle → t.requests = s.requests) ∧ (s.engine = .idle → t.requests = s.requests.tail)

/-- 70_reset_and_hazards.md R260 (with log 15 for the requests still waiting): reset abandons the operation in progress
without a response, and everything the block holds is as after reset. -/
def Obligations.ResetAbandonsOperation : Prop :=
  ∀ s : State,
    s.assertReset.engine = .idle ∧ s.assertReset.config = (State.resetWith s.params).config ∧
      s.assertReset.response = ResponseState.success ∧ s.assertReset.responses = s.responses ∧
      s.assertReset.requests = s.requests ∧ s.assertReset.params = s.params ∧
      ∃ t, step s.assertReset = .next t

/-- 70_reset_and_hazards.md R261; 30_encoding.md R94: `CONFIGURE version=5` without override, the pseudo-operation `DEFAULTS`,
brings the configuration of reset back. (That the block then answers every request as after reset is
`ResponseDependsOnConfigurationOnly`.) -/
def Obligations.DefaultConfigureIsReset : Prop :=
  ∀ s : State, Ready s → s.config.cfgVersion = 5 →
    ∃ t, serve defaultsLine.request s = .next t ∧ Ready t ∧ t.response = ResponseState.success ∧
      t.config = (State.resetWith s.params).config
end

