-- ==== Sys2Proof/Laws/Alphabet.lean ====
section
/-! SUPPORT. The shortcut map: reading after writing, its canonical form, and what the derivation puts into it
(40_configure.md R110 to R113). -/

namespace Sys2Proof.Machine

/-! ### Reading after writing -/

theorem scGet_scPut (c d : Zscii) (v : Shortcut) (m : ShortcutMap) :
    scGet (scPut c v m) d = if c = d then some v else scGet m d := by
  induction m with
  | nil => simp [scPut, scGet]
  | cons kw rest ih =>
    obtain ⟨k, w⟩ := kw
    by_cases hlt : c < k
    · simp [scPut, scGet, hlt]
    · by_cases heq : c = k
      · subst heq
        by_cases hd : c = d <;> simp [scPut, scGet, hlt, hd]
      · simp only [scPut, hlt, heq, if_false, scGet, ih]
        by_cases hd : k = d
        · subst hd; simp [heq]
        · simp [hd]

@[simp] theorem scGet_scPut_same (c : Zscii) (v : Shortcut) (m : ShortcutMap) :
    scGet (scPut c v m) c = some v := by simp [scGet_scPut]

theorem scGet_scPut_other {c d : Zscii} (v : Shortcut) (m : ShortcutMap) (h : c ≠ d) :
    scGet (scPut c v m) d = scGet m d := by simp [scGet_scPut, h]

/-! ### The canonical form -/

/-- A write lists no codepoint but the one it writes. -/
theorem mem_scPut {c : Zscii} {v : Shortcut} {m : ShortcutMap} {p : Zscii × Shortcut} (h : p ∈ scPut c v m) :
    p = (c, v) ∨ p ∈ m := by
  induction m with
  | nil => simpa [scPut] using h
  | cons kw rest ih =>
    obtain ⟨k, w⟩ := kw
    simp only [scPut] at h
    split at h
    · simpa using h
    · split at h
      · simp only [List.mem_cons] at h ⊢; tauto
      · simp only [List.mem_cons] at h ⊢
        rcases h with h | h
        · exact .inr (.inl h)
        · rcases ih h with h | h
          · exact .inl h
          · exact .inr (.inr h)

/-- A write keeps the canonical form. -/
theorem scSorted_scPut {c : Zscii} {v : Shortcut} {m : ShortcutMap} (h : scSorted m = true) :
    scSorted (scPut c v m) = true := by
  simp only [scSorted, decide_eq_true_eq] at h ⊢
  induction m with
  | nil => simp [scPut]
  | cons kw rest ih =>
    obtain ⟨k, w⟩ := kw
    obtain ⟨hk, hrest⟩ := List.pairwise_cons.mp h
    simp only [scPut]
    split
    · rename_i hck
      refine List.pairwise_cons.mpr ⟨?_, h⟩
      intro p hp
      rcases List.mem_cons.mp hp with rfl | hp
      · exact hck
      · exact BitVec.lt_trans hck (hk p hp)
    · rename_i hck
      split
      · rename_i heq
        subst heq
        exact List.pairwise_cons.mpr ⟨hk, hrest⟩
      · rename_i hne
        refine List.pairwise_cons.mpr ⟨?_, ih hrest⟩
        intro p hp
        rcases mem_scPut hp with rfl | hp
        · have hck' := BitVec.not_lt.mp hck
          show k.toNat < c.toNat
          have h1 : k.toNat ≤ c.toNat := hck'
          have h2 : c.toNat ≠ k.toNat := fun e => hne (BitVec.eq_of_toNat_eq e)
          omega
        · exact hk p hp

theorem scSorted_scVisit {table : AlphabetTable} {m : ShortcutMap} (idx : Nat) (h : scSorted m = true) :
    scSorted (scVisit table m idx) = true := by
  unfold scVisit
  split
  · exact h
  · split
    · exact h
    · split
      · exact h
      · exact scSorted_scPut h

/-! ### The derivation -/

/-- One visit gives the visited codepoint a shortcut, unless it has one. -/
theorem scGet_scVisit (table : AlphabetTable) (m : ShortcutMap) (idx : Nat) (c : Zscii) :
    scGet (scVisit table m idx) c =
      match scGet m c with
      | some sh => some sh
      | none =>
        if idx ≠ escSlot ∧ alphaEntry table idx = some c then
          some (shortcutOfSlot (idx / alphaSlots) (idx % alphaSlots))
        else none := by
  unfold scVisit
  by_cases hesc : idx = escSlot
  · cases h : scGet m c <;> simp [hesc, h]
  · simp only [hesc, if_false]
    cases he : alphaEntry table idx with
    | none => cases scGet m c <;> simp
    | some d =>
      dsimp only
      split
      · rename_i hsome
        obtain ⟨sh, hsh⟩ := Option.isSome_iff_exists.mp hsome
        by_cases hdc : d = c
        · subst hdc; simp [hsh]
        · cases scGet m c <;> simp [hdc]
      · rename_i hnone
        have hd : scGet m d = none := by simpa using hnone
        rw [scGet_scPut]
        by_cases hdc : d = c
        · subst hdc; simp [hd, hesc]
        · cases scGet m c <;> simp [hdc]

/-- Index `i` is the first, other than the escape marker, at which the table holds `c`. -/
def FirstIndex (table : AlphabetTable) (c : Zscii) (i : Nat) : Prop :=
  i ≠ escSlot ∧ alphaEntry table i = some c ∧ ∀ j < i, j ≠ escSlot → alphaEntry table j ≠ some c

theorem FirstIndex.unique {table : AlphabetTable} {c : Zscii} {i j : Nat} (hi : FirstIndex table c i)
    (hj : FirstIndex table c j) : i = j := by
  rcases Nat.lt_trichotomy i j with h | h | h
  · exact absurd hi.2.1 (hj.2.2 i h hi.1)
  · exact h
  · exact absurd hj.2.1 (hi.2.2 j h hj.1)

/-- After the visits to the indices below `n`, a codepoint has the shortcut of its first index below `n`. -/
theorem scGet_visits (table : AlphabetTable) (c : Zscii) (sh : Shortcut) (n : Nat) :
    scGet ((List.range n).foldl (scVisit table) []) c = some sh ↔
      ∃ i < n, FirstIndex table c i ∧ sh = shortcutOfSlot (i / alphaSlots) (i % alphaSlots) := by
  induction n generalizing sh with
  | zero => simp [scGet]
  | succ n ih =>
    rw [List.range_succ, List.foldl_append, List.foldl_cons, List.foldl_nil, scGet_scVisit]
    cases hm : scGet ((List.range n).foldl (scVisit table) []) c with
    | some sh' =>
      obtain ⟨i, hin, hi, hsh⟩ := (ih sh').mp hm
      simp only [Option.some.injEq]
      constructor
      · rintro rfl
        exact ⟨i, by omega, hi, hsh⟩
      · rintro ⟨k, -, hk, rfl⟩
        rw [hsh, hi.unique hk]
    | none =>
      have hnone : ∀ i < n, ¬FirstIndex table c i := fun i hin hi => by
        have := (ih _).mpr ⟨i, hin, hi, rfl⟩
        simp [hm] at this
      simp only
      split
      · rename_i h
        simp only [Option.some.injEq]
        constructor
        · rintro rfl
          refine ⟨n, by omega, ⟨h.1, h.2, ?_⟩, rfl⟩
          intro j hj hj52 hjc
          obtain ⟨k, hk⟩ : ∃ k, (k ≠ escSlot ∧ alphaEntry table k = some c) ∧
              ∀ l < k, ¬(l ≠ escSlot ∧ alphaEntry table l = some c) :=
            ⟨_, Nat.find_spec (p := fun k => k ≠ escSlot ∧ alphaEntry table k = some c) ⟨j, hj52, hjc⟩,
              fun _ => Nat.find_min _⟩
          refine hnone k ?_ ⟨hk.1.1, hk.1.2, fun l hl h1 h2 => hk.2 l hl ⟨h1, h2⟩⟩
          by_contra hkn
          exact hk.2 j (by omega) ⟨hj52, hjc⟩
        · rintro ⟨k, hkn, hk, rfl⟩
          have : k = n := by
            by_contra hne
            exact hnone k (by omega) hk
          rw [this]
      · rename_i h
        constructor
        · intro h'
          simp at h'
        · rintro ⟨k, hkn, hk, rfl⟩
          have : k = n := by
            by_contra hne
            exact hnone k (by omega) hk
          subst this
          exact absurd ⟨hk.1, hk.2.1⟩ h

/-- The table holds something at the indices below 78, and only there. -/
theorem alphaEntry_isSome_iff (table : AlphabetTable) (i : Nat) : (alphaEntry table i).isSome ↔ i < 78 := by
  simp [alphaEntry]

theorem alphaEntry_eq_some_iff {table : AlphabetTable} {i : Nat} {c : Zscii} :
    alphaEntry table i = some c ↔ ∃ h : i < 78, table[i] = c := by
  simp [alphaEntry, Vector.getElem?_eq_some_iff]

/-- The derived shortcut of a codepoint: the fixed one of space (R112), else that of its first index. -/
theorem scGet_deriveShortcuts (table : AlphabetTable) (c : Zscii) (sh : Shortcut) :
    scGet (deriveShortcuts table) c = some sh ↔
      if c = zsciiSpace then sh = .one 0
      else ∃ i < 78, FirstIndex table c i ∧ sh = shortcutOfSlot (i / alphaSlots) (i % alphaSlots) := by
  unfold deriveShortcuts
  rw [scGet_scPut]
  by_cases h : c = zsciiSpace
  · subst h
    simp [eq_comm]
  · rw [if_neg (Ne.symm h), if_neg h]
    exact scGet_visits table c sh 78

end Sys2Proof.Machine
end

