-- ==== Sys2Proof/Laws/Operands.lean ====
section
/-! SUPPORT. Taking a word apart gives the fields it was put together from, and putting its fields together gives
the word back (30_encoding.md R71, R75, R80, R81, R84; 20_memory.md R54). -/

namespace Sys2Proof.Machine

/-! ### Bit by bit -/

theorem getLsbD_unpackKey (termSeen : Bool) (n : PackedWord) (i : Nat) :
    (unpackKey termSeen n).getLsbD i = if i < 16 then n.getLsbD i else (BitVec.ofBool termSeen).getLsbD (i - 16) :=
  BitVec.getLsbD_append

theorem getLsbD_wordOfBytes (high low : Byte) (i : Nat) :
    (wordOfBytes high low).getLsbD i = if i < 8 then low.getLsbD i else high.getLsbD (i - 8) :=
  BitVec.getLsbD_append

theorem getLsbD_escapeCodepoint (high low : Zchar) (i : Nat) :
    (escapeCodepoint high low).getLsbD i = if i < 5 then low.getLsbD i else high.getLsbD (i - 5) :=
  BitVec.getLsbD_append

theorem getLsbD_packWord (final : Bool) (z0 z1 z2 : Zchar) (i : Nat) :
    (packWord final z0 z1 z2).getLsbD i =
      if i < 5 then z2.getLsbD i
      else if i - 5 < 5 then z1.getLsbD (i - 5)
      else if i - 5 - 5 < 5 then z0.getLsbD (i - 5 - 5)
      else (BitVec.ofBool final).getLsbD (i - 5 - 5 - 5) := by
  have h2 : (packWord final z0 z1 z2).getLsbD i =
      if i < 5 then z2.getLsbD i else (BitVec.ofBool final ++ z0 ++ z1).getLsbD (i - 5) := BitVec.getLsbD_append
  rw [h2, BitVec.getLsbD_append, BitVec.getLsbD_append]

/-! ### The decode key -/

@[simp] theorem keyPhase_zcharKey : ∀ (p a : BitVec 2) (z : Zchar), keyPhase (zcharKey p a z) = p := by decide

@[simp] theorem keyAlph_zcharKey : ∀ (p a : BitVec 2) (z : Zchar), keyAlph (zcharKey p a z) = a := by decide

@[simp] theorem keyZchar_zcharKey : ∀ (p a : BitVec 2) (z : Zchar), keyZchar (zcharKey p a z) = z := by decide

@[simp] theorem zcharKey_fields : ∀ k : BitVec 9, zcharKey (keyPhase k) (keyAlph k) (keyZchar k) = k := by
  decide +kernel

/-! ### The unpack key -/

@[simp] theorem unpackKeyWord_unpackKey (termSeen : Bool) (n : PackedWord) :
    unpackKeyWord (unpackKey termSeen n) = n := by
  apply BitVec.eq_of_getLsbD_eq
  intro i hi
  simp [unpackKeyWord, -BitVec.getLsbD_eq_getElem, getLsbD_unpackKey, hi]

@[simp] theorem unpackKeyTermSeen_unpackKey (termSeen : Bool) (n : PackedWord) :
    unpackKeyTermSeen (unpackKey termSeen n) = termSeen := by
  simp [unpackKeyTermSeen, -BitVec.getLsbD_eq_getElem, getLsbD_unpackKey]

/-! ### The packed word -/

@[simp] theorem wordMarker_packWord (final : Bool) (z0 z1 z2 : Zchar) :
    wordMarker (packWord final z0 z1 z2) = final := by
  simp [wordMarker, -BitVec.getLsbD_eq_getElem, getLsbD_packWord]

@[simp] theorem wordZ0_packWord (final : Bool) (z0 z1 z2 : Zchar) : wordZ0 (packWord final z0 z1 z2) = z0 := by
  apply BitVec.eq_of_getLsbD_eq
  intro i hi
  interval_cases i <;> simp [wordZ0, -BitVec.getLsbD_eq_getElem, getLsbD_packWord]

@[simp] theorem wordZ1_packWord (final : Bool) (z0 z1 z2 : Zchar) : wordZ1 (packWord final z0 z1 z2) = z1 := by
  apply BitVec.eq_of_getLsbD_eq
  intro i hi
  interval_cases i <;> simp [wordZ1, -BitVec.getLsbD_eq_getElem, getLsbD_packWord]

@[simp] theorem wordZ2_packWord (final : Bool) (z0 z1 z2 : Zchar) : wordZ2 (packWord final z0 z1 z2) = z2 := by
  apply BitVec.eq_of_getLsbD_eq
  intro i hi
  interval_cases i <;> simp [wordZ2, -BitVec.getLsbD_eq_getElem, getLsbD_packWord]

@[simp] theorem packWord_fields (n : PackedWord) :
    packWord (wordMarker n) (wordZ0 n) (wordZ1 n) (wordZ2 n) = n := by
  apply BitVec.eq_of_getLsbD_eq
  intro i hi
  interval_cases i <;>
    simp [wordMarker, wordZ0, wordZ1, wordZ2, -BitVec.getLsbD_eq_getElem, getLsbD_packWord]

/-! ### The bytes of a word -/

@[simp] theorem wordOfBytes_fields (n : PackedWord) : wordOfBytes (wordHighByte n) (wordLowByte n) = n := by
  apply BitVec.eq_of_getLsbD_eq
  intro i hi
  interval_cases i <;> simp [wordHighByte, wordLowByte, -BitVec.getLsbD_eq_getElem, getLsbD_wordOfBytes]

@[simp] theorem wordHighByte_wordOfBytes (high low : Byte) : wordHighByte (wordOfBytes high low) = high := by
  apply BitVec.eq_of_getLsbD_eq
  intro i hi
  interval_cases i <;> simp [wordHighByte, -BitVec.getLsbD_eq_getElem, getLsbD_wordOfBytes]

@[simp] theorem wordLowByte_wordOfBytes (high low : Byte) : wordLowByte (wordOfBytes high low) = low := by
  apply BitVec.eq_of_getLsbD_eq
  intro i hi
  interval_cases i <;> simp [wordLowByte, -BitVec.getLsbD_eq_getElem, getLsbD_wordOfBytes]

/-! ### The escape -/

@[simp] theorem escapeCodepoint_fields (c : Zscii) : escapeCodepoint (escapeHigh c) (escapeLow c) = c := by
  apply BitVec.eq_of_getLsbD_eq
  intro i hi
  interval_cases i <;> simp [escapeHigh, escapeLow, -BitVec.getLsbD_eq_getElem, getLsbD_escapeCodepoint]

/-! ### Lanes -/

@[simp] theorem toZchar_ofZchar (z : Zchar) : (Elem.ofZchar z).toZchar = z := by simp

@[simp] theorem toZscii_ofZscii (c : Zscii) : (Elem.ofZscii c).toZscii = c := by simp

@[simp] theorem toByte_ofByte (b : Byte) : (Elem.ofByte b).toByte = b := by simp

theorem ofZchar_lt (z : Zchar) : Elem.ofZchar z < 32 := z.isLt

theorem ofZscii_lt (c : Zscii) : Elem.ofZscii c < 1024 := c.isLt

theorem ofByte_lt (b : Byte) : Elem.ofByte b < 256 := b.isLt

/-! ### The encoder's input port (00_scope.md R8; 92_eei_decisions.md D4) -/

theorem zsciiPort_lt (width : Nat) (e : Elem) : zsciiPort width e < 2 ^ width := Nat.mod_lt _ (Nat.two_pow_pos width)

/-- A port gives every element that fits it. -/
theorem zsciiPort_fits {width : Nat} {e : Elem} (h : e < 2 ^ width) : zsciiPort width e = e := Nat.mod_eq_of_lt h

@[simp] theorem zsciiPort_toNat {width : Nat} (c : ZsciiIn width) : zsciiPort width c.toNat = c.toNat :=
  zsciiPort_fits c.isLt

/-- Every port gives a codepoint as it stands. -/
theorem zsciiPort_ofZscii {width : Nat} (h : 11 ≤ width) (c : Zscii) :
    zsciiPort width (Elem.ofZscii c) = Elem.ofZscii c :=
  zsciiPort_fits (Nat.lt_of_lt_of_le c.isLt (Nat.pow_le_pow_right (by decide) (by omega)))

@[simp] theorem zsciiOfInput_ofZscii (c : Zscii) : zsciiOfInput (Elem.ofZscii c) = c := by simp [zsciiOfInput]

@[simp] theorem inZsciiRange_ofZscii (c : Zscii) : inZsciiRange (Elem.ofZscii c) = true := by
  simpa [inZsciiRange] using c.isLt

/-- `ERR_VALUE` is the element wherever its 16 bits hold it. -/
theorem errValueOfInput_toNat {c : Nat} (h : c < 2 ^ 16) : (errValueOfInput c).toNat = c := by
  rw [errValueOfInput, if_pos h, BitVec.toNat_ofNat, Nat.mod_eq_of_lt h]

end Sys2Proof.Machine
end

