-- ==== Sys2Proof/Laws/Decode.lean ====
section
/-! SUPPORT. What the masks of the selection tables test, as fields and bits of the word (30_encoding.md R75, R78, R79). -/

namespace Sys2Proof

open Machine

/-- `c < 1024` is `c[15:10] = 0`. -/
theorem lt_1024_iff (c : BitVec 16) : c < 1024 ↔ c.extractLsb' 10 6 = 0#6 := by
  rw [BitVec.lt_def, ← BitVec.toNat_inj]
  simp [Nat.shiftRight_eq_div_pow]
  have := c.isLt
  omega

/-- A mask over the top six bits of an encoder element tests its field `c[15:10]`. -/
theorem mask_top_six (c : BitVec 16) (m v : BitVec 6) :
    (c &&& (m.setWidth 16 <<< 10) == v.setWidth 16 <<< 10) = (c.extractLsb' 10 6 &&& m == v) := by
  rw [Bool.eq_iff_iff]
  simp only [beq_iff_eq]
  constructor
  · intro h
    apply BitVec.eq_of_getLsbD_eq
    intro i hi
    have := congrArg (fun b => b.getLsbD (10 + i)) h
    simpa [hi, show 10 + i < 16 by omega] using this
  · intro h
    apply BitVec.eq_of_getLsbD_eq
    intro i hi
    by_cases h10 : i < 10
    · simp [h10]
    · have := congrArg (fun b => b.getLsbD (i - 10)) h
      simp [hi, h10, show i - 10 < 6 by omega, show 10 + (i - 10) = i by omega] at this ⊢
      simpa [hi] using this

/-- The masks of the unpack rows test `TERM_SEEN` (bit 16) and `E` (bit 15). -/
theorem mask_unpack (k : BitVec 17) :
    (k &&& 0x10000 == (0x10000 : BitVec 17)) = k.getLsbD 16 ∧
      (k &&& 0x18000 == (0x00000 : BitVec 17)) = (!k.getLsbD 16 && !k.getLsbD 15) ∧
      (k &&& 0x18000 == (0x08000 : BitVec 17)) = (!k.getLsbD 16 && k.getLsbD 15) := by
  refine ⟨?_, ?_, ?_⟩ <;> rw [Bool.eq_iff_iff] <;> simp only [beq_iff_eq] <;> constructor <;> intro h
  all_goals first
    | (have h16 := congrArg (fun b => b.getLsbD 16) h
       have h15 := congrArg (fun b => b.getLsbD 15) h
       simp at h16 h15
       simp [h16, h15])
    | (apply BitVec.eq_of_getLsbD_eq
       intro i hi
       interval_cases i <;> simp_all)

/-- Every command byte is matched: no byte falls through the command table (30_encoding.md R90). -/
theorem commandRows_total : ∀ b : BitVec 8, (firstRow commandRows b).isSome = true := by decide +kernel

/-- The unpack table matches every key. -/
theorem unpackRows_total (k : BitVec 17) : (firstRow unpackRows k).isSome = true := by
  obtain ⟨h1, h2, h3⟩ := mask_unpack k
  simp only [firstRow, unpackRows, List.find?, Row.matches, h1, h2, h3]
  cases k.getLsbD 16 <;> cases k.getLsbD 15 <;> rfl

/-! ### The decode key, by phase (30_encoding.md R72) -/

/-- The instruction of a Z-char in phase NORMAL with a real pending alphabet, in the order of R152 to R158. -/
def normalInstr (alph : BitVec 2) (z : Zchar) : Instr :=
  if z = 0 then .zcSpace alph
  else if z = 1 ∨ z = 2 ∨ z = 3 then .zcRsv alph z
  else if z = 4 then .zcShiftA1 alph
  else if z = 5 then .zcShiftA2 alph
  else if z = 6 ∧ alph = 2 then .zcEscape
  else .zcLit alph z

theorem decodeKey_normal : ∀ (alph : BitVec 2) (z : Zchar), alph ≠ 3 →
    decodeKey (zcharKey 0 alph z) = .ok (normalInstr alph z) := by decide +kernel

theorem decodeKey_escHi : ∀ (alph : BitVec 2) (z : Zchar),
    decodeKey (zcharKey 1 alph z) = .ok (.zcEscHi alph z) := by decide +kernel

theorem decodeKey_escLo : ∀ (alph : BitVec 2) (z : Zchar),
    decodeKey (zcharKey 2 alph z) = .ok (.zcEscLo alph z) := by decide +kernel

/-- The lookup index of a literal stays inside the table (30_encoding.md R82). -/
theorem literalIndex_lt : ∀ (alph : BitVec 2) (z : Zchar), alph ≠ 3 → literalIndex alph z < 78 := by
  decide +kernel

/-- With `ALPH = 3` it never does. -/
theorem literalIndex_three : ∀ z : Zchar, 6 ≤ z → ¬ literalIndex 3 z < 78 := by decide +kernel

end Sys2Proof
end

