-- ==== Sys2Proof/Laws/Params.lean ====
section
/-! SUPPORT. What the parameters of every block satisfy (10_state.md R31): what a legal default table holds. -/

namespace Sys2Proof

open Machine

/-- A legal table has the eleven fixed entries, and every entry fits its block; and nothing else makes it legal. -/
theorem Machine.legalDefault_iff {table : AlphabetTable} :
    legalDefault table = true ↔
      (∀ e ∈ fixedEntries, alphaEntry table e.1 = some e.2) ∧ ∀ (i : Nat) (h : i < 78), fitsBlock i table[i] = true := by
  simp +contextual [legalDefault, alphaEntry, alphaN, List.all_eq_true]

/-- The table of the spec is legal. -/
theorem Machine.legalDefault_default : legalDefault defaultAlphabet = true := defaultParams.defaultAlphabet_legal

theorem Params.fixedEntry (p : Params) {e : Nat × Zscii} (h : e ∈ fixedEntries) :
    alphaEntry p.defaultAlphabet e.1 = some e.2 := (legalDefault_iff.mp p.defaultAlphabet_legal).1 e h

theorem Params.fitsBlock (p : Params) {i : Nat} (h : i < 78) : fitsBlock i p.defaultAlphabet[i] = true :=
  (legalDefault_iff.mp p.defaultAlphabet_legal).2 i h

/-- Every default table has the escape marker at index 52. -/
@[simp] theorem Params.escSlot_nul (p : Params) : p.defaultAlphabet[52] = 0x000#10 := by
  have h := p.fixedEntry (e := (52, 0x00)) (by decide)
  rw [alphaEntry, Vector.getElem?_eq_getElem (by decide)] at h
  exact Option.some.inj h

/-- So a default table never raises the warning, and never fails the index-52 check. -/
@[simp] theorem Params.escapeSlotWarning_default (p : Params) : escapeSlotWarning p.defaultAlphabet = false := by
  simp [escapeSlotWarning, escSlot]

end Sys2Proof
end

