-- ==== Sys2Proof/Laws/State.lean ====
section
/-! SUPPORT. One lemma for each field and each update of the state: what the update leaves in the field. -/

namespace Sys2Proof.Machine

/-! ### `emit` -/

@[simp] theorem emit_params (v : Elem) (s : State) : (emit v s).params = s.params := rfl
@[simp] theorem emit_config (v : Elem) (s : State) : (emit v s).config = s.config := rfl
@[simp] theorem emit_response (v : Elem) (s : State) : (emit v s).response = s.response := rfl
@[simp] theorem emit_engine (v : Elem) (s : State) : (emit v s).engine = s.engine := rfl
@[simp] theorem emit_request (v : Elem) (s : State) : (emit v s).request = s.request := rfl
@[simp] theorem emit_requests (v : Elem) (s : State) : (emit v s).requests = s.requests := rfl
@[simp] theorem emit_responses (v : Elem) (s : State) : (emit v s).responses = s.responses := rfl
@[simp] theorem emit_alph (v : Elem) (s : State) : (emit v s).work.alph = s.work.alph := rfl
@[simp] theorem emit_phase (v : Elem) (s : State) : (emit v s).work.phase = s.work.phase := rfl
@[simp] theorem emit_escHiLatch (v : Elem) (s : State) : (emit v s).work.escHiLatch = s.work.escHiLatch := rfl
@[simp] theorem emit_grp (v : Elem) (s : State) : (emit v s).work.grp = s.work.grp := rfl
@[simp] theorem emit_gcnt (v : Elem) (s : State) : (emit v s).work.gcnt = s.work.gcnt := rfl
@[simp] theorem emit_termSeen (v : Elem) (s : State) : (emit v s).work.termSeen = s.work.termSeen := rfl
@[simp] theorem emit_idx (v : Elem) (s : State) : (emit v s).work.idx = s.work.idx := rfl
@[simp] theorem emit_input (v : Elem) (s : State) : (emit v s).work.input = s.work.input := rfl
@[simp] theorem emit_out (v : Elem) (s : State) : (emit v s).work.out = s.work.out ++ [v] := rfl

/-! ### `advance` -/

@[simp] theorem advance_params (n : Nat) (s : State) : (advance n s).params = s.params := rfl
@[simp] theorem advance_config (n : Nat) (s : State) : (advance n s).config = s.config := rfl
@[simp] theorem advance_response (n : Nat) (s : State) : (advance n s).response = s.response := rfl
@[simp] theorem advance_engine (n : Nat) (s : State) : (advance n s).engine = s.engine := rfl
@[simp] theorem advance_request (n : Nat) (s : State) : (advance n s).request = s.request := rfl
@[simp] theorem advance_requests (n : Nat) (s : State) : (advance n s).requests = s.requests := rfl
@[simp] theorem advance_responses (n : Nat) (s : State) : (advance n s).responses = s.responses := rfl
@[simp] theorem advance_alph (n : Nat) (s : State) : (advance n s).work.alph = s.work.alph := rfl
@[simp] theorem advance_phase (n : Nat) (s : State) : (advance n s).work.phase = s.work.phase := rfl
@[simp] theorem advance_escHiLatch (n : Nat) (s : State) : (advance n s).work.escHiLatch = s.work.escHiLatch := rfl
@[simp] theorem advance_grp (n : Nat) (s : State) : (advance n s).work.grp = s.work.grp := rfl
@[simp] theorem advance_gcnt (n : Nat) (s : State) : (advance n s).work.gcnt = s.work.gcnt := rfl
@[simp] theorem advance_termSeen (n : Nat) (s : State) : (advance n s).work.termSeen = s.work.termSeen := rfl
@[simp] theorem advance_idx (n : Nat) (s : State) : (advance n s).work.idx = s.work.idx + n := rfl
@[simp] theorem advance_input (n : Nat) (s : State) : (advance n s).work.input = s.work.input := rfl
@[simp] theorem advance_out (n : Nat) (s : State) : (advance n s).work.out = s.work.out := rfl

/-! ### `setAlph` -/

@[simp] theorem setAlph_params (a : BitVec 2) (s : State) : (setAlph a s).params = s.params := rfl
@[simp] theorem setAlph_config (a : BitVec 2) (s : State) : (setAlph a s).config = s.config := rfl
@[simp] theorem setAlph_response (a : BitVec 2) (s : State) : (setAlph a s).response = s.response := rfl
@[simp] theorem setAlph_engine (a : BitVec 2) (s : State) : (setAlph a s).engine = s.engine := rfl
@[simp] theorem setAlph_request (a : BitVec 2) (s : State) : (setAlph a s).request = s.request := rfl
@[simp] theorem setAlph_requests (a : BitVec 2) (s : State) : (setAlph a s).requests = s.requests := rfl
@[simp] theorem setAlph_responses (a : BitVec 2) (s : State) : (setAlph a s).responses = s.responses := rfl
@[simp] theorem setAlph_alph (a : BitVec 2) (s : State) : (setAlph a s).work.alph = a := rfl
@[simp] theorem setAlph_phase (a : BitVec 2) (s : State) : (setAlph a s).work.phase = s.work.phase := rfl
@[simp] theorem setAlph_escHiLatch (a : BitVec 2) (s : State) : (setAlph a s).work.escHiLatch = s.work.escHiLatch := rfl
@[simp] theorem setAlph_grp (a : BitVec 2) (s : State) : (setAlph a s).work.grp = s.work.grp := rfl
@[simp] theorem setAlph_gcnt (a : BitVec 2) (s : State) : (setAlph a s).work.gcnt = s.work.gcnt := rfl
@[simp] theorem setAlph_termSeen (a : BitVec 2) (s : State) : (setAlph a s).work.termSeen = s.work.termSeen := rfl
@[simp] theorem setAlph_idx (a : BitVec 2) (s : State) : (setAlph a s).work.idx = s.work.idx := rfl
@[simp] theorem setAlph_input (a : BitVec 2) (s : State) : (setAlph a s).work.input = s.work.input := rfl
@[simp] theorem setAlph_out (a : BitVec 2) (s : State) : (setAlph a s).work.out = s.work.out := rfl

/-! ### `setPhase` -/

@[simp] theorem setPhase_params (p : BitVec 2) (s : State) : (setPhase p s).params = s.params := rfl
@[simp] theorem setPhase_config (p : BitVec 2) (s : State) : (setPhase p s).config = s.config := rfl
@[simp] theorem setPhase_response (p : BitVec 2) (s : State) : (setPhase p s).response = s.response := rfl
@[simp] theorem setPhase_engine (p : BitVec 2) (s : State) : (setPhase p s).engine = s.engine := rfl
@[simp] theorem setPhase_request (p : BitVec 2) (s : State) : (setPhase p s).request = s.request := rfl
@[simp] theorem setPhase_requests (p : BitVec 2) (s : State) : (setPhase p s).requests = s.requests := rfl
@[simp] theorem setPhase_responses (p : BitVec 2) (s : State) : (setPhase p s).responses = s.responses := rfl
@[simp] theorem setPhase_alph (p : BitVec 2) (s : State) : (setPhase p s).work.alph = s.work.alph := rfl
@[simp] theorem setPhase_phase (p : BitVec 2) (s : State) : (setPhase p s).work.phase = p := rfl
@[simp] theorem setPhase_escHiLatch (p : BitVec 2) (s : State) : (setPhase p s).work.escHiLatch = s.work.escHiLatch := rfl
@[simp] theorem setPhase_grp (p : BitVec 2) (s : State) : (setPhase p s).work.grp = s.work.grp := rfl
@[simp] theorem setPhase_gcnt (p : BitVec 2) (s : State) : (setPhase p s).work.gcnt = s.work.gcnt := rfl
@[simp] theorem setPhase_termSeen (p : BitVec 2) (s : State) : (setPhase p s).work.termSeen = s.work.termSeen := rfl
@[simp] theorem setPhase_idx (p : BitVec 2) (s : State) : (setPhase p s).work.idx = s.work.idx := rfl
@[simp] theorem setPhase_input (p : BitVec 2) (s : State) : (setPhase p s).work.input = s.work.input := rfl
@[simp] theorem setPhase_out (p : BitVec 2) (s : State) : (setPhase p s).work.out = s.work.out := rfl

/-! ### `latchHigh` -/

@[simp] theorem latchHigh_params (z : Zchar) (s : State) : (latchHigh z s).params = s.params := rfl
@[simp] theorem latchHigh_config (z : Zchar) (s : State) : (latchHigh z s).config = s.config := rfl
@[simp] theorem latchHigh_response (z : Zchar) (s : State) : (latchHigh z s).response = s.response := rfl
@[simp] theorem latchHigh_engine (z : Zchar) (s : State) : (latchHigh z s).engine = s.engine := rfl
@[simp] theorem latchHigh_request (z : Zchar) (s : State) : (latchHigh z s).request = s.request := rfl
@[simp] theorem latchHigh_requests (z : Zchar) (s : State) : (latchHigh z s).requests = s.requests := rfl
@[simp] theorem latchHigh_responses (z : Zchar) (s : State) : (latchHigh z s).responses = s.responses := rfl
@[simp] theorem latchHigh_alph (z : Zchar) (s : State) : (latchHigh z s).work.alph = s.work.alph := rfl
@[simp] theorem latchHigh_phase (z : Zchar) (s : State) : (latchHigh z s).work.phase = s.work.phase := rfl
@[simp] theorem latchHigh_escHiLatch (z : Zchar) (s : State) : (latchHigh z s).work.escHiLatch = z := rfl
@[simp] theorem latchHigh_grp (z : Zchar) (s : State) : (latchHigh z s).work.grp = s.work.grp := rfl
@[simp] theorem latchHigh_gcnt (z : Zchar) (s : State) : (latchHigh z s).work.gcnt = s.work.gcnt := rfl
@[simp] theorem latchHigh_termSeen (z : Zchar) (s : State) : (latchHigh z s).work.termSeen = s.work.termSeen := rfl
@[simp] theorem latchHigh_idx (z : Zchar) (s : State) : (latchHigh z s).work.idx = s.work.idx := rfl
@[simp] theorem latchHigh_input (z : Zchar) (s : State) : (latchHigh z s).work.input = s.work.input := rfl
@[simp] theorem latchHigh_out (z : Zchar) (s : State) : (latchHigh z s).work.out = s.work.out := rfl

/-! ### `noteMarker` -/

@[simp] theorem noteMarker_params (m : Bool) (s : State) : (noteMarker m s).params = s.params := rfl
@[simp] theorem noteMarker_config (m : Bool) (s : State) : (noteMarker m s).config = s.config := rfl
@[simp] theorem noteMarker_response (m : Bool) (s : State) : (noteMarker m s).response = s.response := rfl
@[simp] theorem noteMarker_engine (m : Bool) (s : State) : (noteMarker m s).engine = s.engine := rfl
@[simp] theorem noteMarker_request (m : Bool) (s : State) : (noteMarker m s).request = s.request := rfl
@[simp] theorem noteMarker_requests (m : Bool) (s : State) : (noteMarker m s).requests = s.requests := rfl
@[simp] theorem noteMarker_responses (m : Bool) (s : State) : (noteMarker m s).responses = s.responses := rfl
@[simp] theorem noteMarker_alph (m : Bool) (s : State) : (noteMarker m s).work.alph = s.work.alph := rfl
@[simp] theorem noteMarker_phase (m : Bool) (s : State) : (noteMarker m s).work.phase = s.work.phase := rfl
@[simp] theorem noteMarker_escHiLatch (m : Bool) (s : State) : (noteMarker m s).work.escHiLatch = s.work.escHiLatch := rfl
@[simp] theorem noteMarker_grp (m : Bool) (s : State) : (noteMarker m s).work.grp = s.work.grp := rfl
@[simp] theorem noteMarker_gcnt (m : Bool) (s : State) : (noteMarker m s).work.gcnt = s.work.gcnt := rfl
@[simp] theorem noteMarker_termSeen (m : Bool) (s : State) : (noteMarker m s).work.termSeen = termSeenAfter s.work.termSeen m := rfl
@[simp] theorem noteMarker_idx (m : Bool) (s : State) : (noteMarker m s).work.idx = s.work.idx := rfl
@[simp] theorem noteMarker_input (m : Bool) (s : State) : (noteMarker m s).work.input = s.work.input := rfl
@[simp] theorem noteMarker_out (m : Bool) (s : State) : (noteMarker m s).work.out = s.work.out := rfl

/-! ### `pushGroup` -/

@[simp] theorem pushGroup_params (z : Zchar) (s : State) : (pushGroup z s).params = s.params := rfl
@[simp] theorem pushGroup_config (z : Zchar) (s : State) : (pushGroup z s).config = s.config := rfl
@[simp] theorem pushGroup_response (z : Zchar) (s : State) : (pushGroup z s).response = s.response := rfl
@[simp] theorem pushGroup_engine (z : Zchar) (s : State) : (pushGroup z s).engine = s.engine := rfl
@[simp] theorem pushGroup_request (z : Zchar) (s : State) : (pushGroup z s).request = s.request := rfl
@[simp] theorem pushGroup_requests (z : Zchar) (s : State) : (pushGroup z s).requests = s.requests := rfl
@[simp] theorem pushGroup_responses (z : Zchar) (s : State) : (pushGroup z s).responses = s.responses := rfl
@[simp] theorem pushGroup_alph (z : Zchar) (s : State) : (pushGroup z s).work.alph = s.work.alph := rfl
@[simp] theorem pushGroup_phase (z : Zchar) (s : State) : (pushGroup z s).work.phase = s.work.phase := rfl
@[simp] theorem pushGroup_escHiLatch (z : Zchar) (s : State) : (pushGroup z s).work.escHiLatch = s.work.escHiLatch := rfl
@[simp] theorem pushGroup_grp (z : Zchar) (s : State) : (pushGroup z s).work.grp = s.work.grp.setIfInBounds s.work.gcnt z := rfl
@[simp] theorem pushGroup_gcnt (z : Zchar) (s : State) : (pushGroup z s).work.gcnt = s.work.gcnt + 1 := rfl
@[simp] theorem pushGroup_termSeen (z : Zchar) (s : State) : (pushGroup z s).work.termSeen = s.work.termSeen := rfl
@[simp] theorem pushGroup_idx (z : Zchar) (s : State) : (pushGroup z s).work.idx = s.work.idx := rfl
@[simp] theorem pushGroup_input (z : Zchar) (s : State) : (pushGroup z s).work.input = s.work.input := rfl
@[simp] theorem pushGroup_out (z : Zchar) (s : State) : (pushGroup z s).work.out = s.work.out := rfl

/-! ### `clearGroup` -/

@[simp] theorem clearGroup_params (s : State) : (clearGroup s).params = s.params := rfl
@[simp] theorem clearGroup_config (s : State) : (clearGroup s).config = s.config := rfl
@[simp] theorem clearGroup_response (s : State) : (clearGroup s).response = s.response := rfl
@[simp] theorem clearGroup_engine (s : State) : (clearGroup s).engine = s.engine := rfl
@[simp] theorem clearGroup_request (s : State) : (clearGroup s).request = s.request := rfl
@[simp] theorem clearGroup_requests (s : State) : (clearGroup s).requests = s.requests := rfl
@[simp] theorem clearGroup_responses (s : State) : (clearGroup s).responses = s.responses := rfl
@[simp] theorem clearGroup_alph (s : State) : (clearGroup s).work.alph = s.work.alph := rfl
@[simp] theorem clearGroup_phase (s : State) : (clearGroup s).work.phase = s.work.phase := rfl
@[simp] theorem clearGroup_escHiLatch (s : State) : (clearGroup s).work.escHiLatch = s.work.escHiLatch := rfl
@[simp] theorem clearGroup_grp (s : State) : (clearGroup s).work.grp = s.work.grp := rfl
@[simp] theorem clearGroup_gcnt (s : State) : (clearGroup s).work.gcnt = 0 := rfl
@[simp] theorem clearGroup_termSeen (s : State) : (clearGroup s).work.termSeen = s.work.termSeen := rfl
@[simp] theorem clearGroup_idx (s : State) : (clearGroup s).work.idx = s.work.idx := rfl
@[simp] theorem clearGroup_input (s : State) : (clearGroup s).work.input = s.work.input := rfl
@[simp] theorem clearGroup_out (s : State) : (clearGroup s).work.out = s.work.out := rfl

/-! ### `startStage` -/

@[simp] theorem startStage_params (g : Engine) (l : List Elem) (s : State) : (startStage g l s).params = s.params := rfl
@[simp] theorem startStage_config (g : Engine) (l : List Elem) (s : State) : (startStage g l s).config = s.config := rfl
@[simp] theorem startStage_response (g : Engine) (l : List Elem) (s : State) : (startStage g l s).response = s.response := rfl
@[simp] theorem startStage_engine (g : Engine) (l : List Elem) (s : State) : (startStage g l s).engine = g := rfl
@[simp] theorem startStage_request (g : Engine) (l : List Elem) (s : State) : (startStage g l s).request = s.request := rfl
@[simp] theorem startStage_requests (g : Engine) (l : List Elem) (s : State) : (startStage g l s).requests = s.requests := rfl
@[simp] theorem startStage_responses (g : Engine) (l : List Elem) (s : State) : (startStage g l s).responses = s.responses := rfl
@[simp] theorem startStage_alph (g : Engine) (l : List Elem) (s : State) : (startStage g l s).work.alph = s.work.alph := rfl
@[simp] theorem startStage_phase (g : Engine) (l : List Elem) (s : State) : (startStage g l s).work.phase = s.work.phase := rfl
@[simp] theorem startStage_escHiLatch (g : Engine) (l : List Elem) (s : State) : (startStage g l s).work.escHiLatch = s.work.escHiLatch := rfl
@[simp] theorem startStage_grp (g : Engine) (l : List Elem) (s : State) : (startStage g l s).work.grp = s.work.grp := rfl
@[simp] theorem startStage_gcnt (g : Engine) (l : List Elem) (s : State) : (startStage g l s).work.gcnt = s.work.gcnt := rfl
@[simp] theorem startStage_termSeen (g : Engine) (l : List Elem) (s : State) : (startStage g l s).work.termSeen = s.work.termSeen := rfl
@[simp] theorem startStage_idx (g : Engine) (l : List Elem) (s : State) : (startStage g l s).work.idx = 0 := rfl
@[simp] theorem startStage_input (g : Engine) (l : List Elem) (s : State) : (startStage g l s).work.input = l := rfl
@[simp] theorem startStage_out (g : Engine) (l : List Elem) (s : State) : (startStage g l s).work.out = [] := rfl

/-! ### `giveResponse` -/

@[simp] theorem giveResponse_params (r : ResponseState) (o : List Elem) (s : State) : (giveResponse r o s).params = s.params := rfl
@[simp] theorem giveResponse_config (r : ResponseState) (o : List Elem) (s : State) : (giveResponse r o s).config = s.config := rfl
@[simp] theorem giveResponse_response (r : ResponseState) (o : List Elem) (s : State) : (giveResponse r o s).response = r := rfl
@[simp] theorem giveResponse_engine (r : ResponseState) (o : List Elem) (s : State) : (giveResponse r o s).engine = .idle := rfl
@[simp] theorem giveResponse_request (r : ResponseState) (o : List Elem) (s : State) : (giveResponse r o s).request = s.request := rfl
@[simp] theorem giveResponse_requests (r : ResponseState) (o : List Elem) (s : State) : (giveResponse r o s).requests = s.requests := rfl
@[simp] theorem giveResponse_responses (r : ResponseState) (o : List Elem) (s : State) : (giveResponse r o s).responses = s.responses ++ [⟨r.status, r.errValue, r.errAlph, r.errPos, s.config.warnA2s0, o⟩] := rfl
@[simp] theorem giveResponse_alph (r : ResponseState) (o : List Elem) (s : State) : (giveResponse r o s).work.alph = s.work.alph := rfl
@[simp] theorem giveResponse_phase (r : ResponseState) (o : List Elem) (s : State) : (giveResponse r o s).work.phase = s.work.phase := rfl
@[simp] theorem giveResponse_escHiLatch (r : ResponseState) (o : List Elem) (s : State) : (giveResponse r o s).work.escHiLatch = s.work.escHiLatch := rfl
@[simp] theorem giveResponse_grp (r : ResponseState) (o : List Elem) (s : State) : (giveResponse r o s).work.grp = s.work.grp := rfl
@[simp] theorem giveResponse_gcnt (r : ResponseState) (o : List Elem) (s : State) : (giveResponse r o s).work.gcnt = s.work.gcnt := rfl
@[simp] theorem giveResponse_termSeen (r : ResponseState) (o : List Elem) (s : State) : (giveResponse r o s).work.termSeen = s.work.termSeen := rfl
@[simp] theorem giveResponse_idx (r : ResponseState) (o : List Elem) (s : State) : (giveResponse r o s).work.idx = s.work.idx := rfl
@[simp] theorem giveResponse_input (r : ResponseState) (o : List Elem) (s : State) : (giveResponse r o s).work.input = s.work.input := rfl
@[simp] theorem giveResponse_out (r : ResponseState) (o : List Elem) (s : State) : (giveResponse r o s).work.out = [] := rfl

/-! ### `State.post` -/

@[simp] theorem post_params (r : Request) (s : State) : (s.post r).params = s.params := rfl
@[simp] theorem post_config (r : Request) (s : State) : (s.post r).config = s.config := rfl
@[simp] theorem post_response (r : Request) (s : State) : (s.post r).response = s.response := rfl
@[simp] theorem post_engine (r : Request) (s : State) : (s.post r).engine = s.engine := rfl
@[simp] theorem post_request (r : Request) (s : State) : (s.post r).request = s.request := rfl
@[simp] theorem post_requests (r : Request) (s : State) : (s.post r).requests = s.requests ++ [r] := rfl
@[simp] theorem post_responses (r : Request) (s : State) : (s.post r).responses = s.responses := rfl
@[simp] theorem post_work (r : Request) (s : State) : (s.post r).work = s.work := rfl

/-! ### `acceptRequest` -/

@[simp] theorem acceptRequest_params (r : Request) (rest : List Request) (s : State) : (acceptRequest r rest s).params = s.params := rfl
@[simp] theorem acceptRequest_config (r : Request) (rest : List Request) (s : State) : (acceptRequest r rest s).config = s.config := rfl
@[simp] theorem acceptRequest_response (r : Request) (rest : List Request) (s : State) : (acceptRequest r rest s).response = s.response := rfl
@[simp] theorem acceptRequest_engine (r : Request) (rest : List Request) (s : State) : (acceptRequest r rest s).engine = s.engine := rfl
@[simp] theorem acceptRequest_request (r : Request) (rest : List Request) (s : State) : (acceptRequest r rest s).request = r := rfl
@[simp] theorem acceptRequest_requests (r : Request) (rest : List Request) (s : State) : (acceptRequest r rest s).requests = rest := rfl
@[simp] theorem acceptRequest_responses (r : Request) (rest : List Request) (s : State) : (acceptRequest r rest s).responses = s.responses := rfl
@[simp] theorem acceptRequest_work (r : Request) (rest : List Request) (s : State) : (acceptRequest r rest s).work = s.work := rfl

end Sys2Proof.Machine
end

