-- ==== Sys2Proof/Laws/Ops.lean ====
section
/-! SUPPORT. One lemma for each shared operation: everything it does, for later proofs to cite instead of
unfolding it. -/

namespace Sys2Proof.Machine

/-! ### Buffers -/

/-- What is left of a buffer from the cursor on gives the element at the cursor and what is left after it. -/
theorem drop_cons {α : Type} {l rest : List α} {i : Nat} {x : α} (h : l.drop i = x :: rest) :
    l[i]? = some x ∧ l.drop (i + 1) = rest := by
  constructor
  · have := congrArg List.head? h
    simpa [List.head?_drop] using this
  · rw [← List.drop_drop, h]
    simp

/-! ### Responding -/

/-- `t` is what an operation that started from `s` leaves when it has given the response `p`: the engine is
idle, the response is the last one given and stands in the response state, and the configuration, the
parameters, the request and the waiting requests are those of `s`. -/
structure Ended (s t : State) (p : Response) : Prop where
  engine : t.engine = .idle
  out : t.work.out = []
  responses : t.responses = s.responses ++ [p]
  response : t.response =
    { status := p.status, errValue := p.errValue, errAlph := p.errAlph, errPos := p.errPos }
  config : t.config = s.config
  params : t.params = s.params
  request : t.request = s.request
  requests : t.requests = s.requests

theorem giveResponse_ended (r : ResponseState) (out : List Elem) (s : State) :
    Ended s (giveResponse r out s)
      { status := r.status, errValue := r.errValue, errAlph := r.errAlph, errPos := r.errPos,
        warn := s.config.warnA2s0, out := out } :=
  ⟨rfl, rfl, rfl, rfl, rfl, rfl, rfl, rfl⟩

/-- Taking an error (60_exceptions.md R233). -/
theorem raise_ended (kind : ErrorKind) (value : BitVec 16) (alph : BitVec 2) (pos : Nat) (s : State) :
    Ended s (raise kind value alph pos s)
      { status := statusCode kind, errValue := value, errAlph := alph, errPos := pos,
        warn := s.config.warnA2s0, out := [] } :=
  giveResponse_ended _ _ s

theorem respondOk_ended (s : State) :
    Ended s (respondOk s)
      { status := 0, errValue := 0, errAlph := 0, errPos := 0, warn := s.config.warnA2s0, out := s.work.out } :=
  giveResponse_ended _ _ s

/-- The operation may have started earlier, from a state that agrees on what a running stage does not write. -/
theorem Ended.of_eq {s s' t : State} {p : Response} (h : Ended s' t p) (hr : s'.responses = s.responses)
    (hc : s'.config = s.config) (hp : s'.params = s.params) (hq : s'.request = s.request)
    (hw : s'.requests = s.requests) : Ended s t p :=
  ⟨h.engine, h.out, h.responses.trans (by rw [hr]), h.response, h.config.trans hc, h.params.trans hp,
    h.request.trans hq, h.requests.trans hw⟩

/-! ### The packer (43_packer.md R180 to R184) -/

theorem setIfInBounds_group (g : Vector Zchar 3) (i : Nat) (z : Zchar) (h : i < 3) :
    g.setIfInBounds i z = g.set i z h := by
  ext j hj
  simp [Vector.getElem_setIfInBounds, Vector.getElem_set]

theorem packElement_first {s : State} (z : Zchar) (h : s.work.gcnt = 0) :
    packElement z s =
      { s with work.grp := s.work.grp.set 0 z, work.gcnt := 1, work.idx := s.work.idx + 1 } := by
  have hp : pushGroup z s = { s with work.grp := s.work.grp.set 0 z, work.gcnt := 1 } := by
    simp only [pushGroup, h]
    rw [show ((0 : Fin 4) : Nat) = 0 from rfl, setIfInBounds_group _ _ _ (by decide)]
    rfl
  simp only [packElement, hp]
  rw [if_neg (by decide)]
  rfl

theorem packElement_second {s : State} (z : Zchar) (h : s.work.gcnt = 1) :
    packElement z s =
      { s with work.grp := s.work.grp.set 1 z, work.gcnt := 2, work.idx := s.work.idx + 1 } := by
  have hp : pushGroup z s = { s with work.grp := s.work.grp.set 1 z, work.gcnt := 2 } := by
    simp only [pushGroup, h]
    rw [show ((1 : Fin 4) : Nat) = 1 from rfl, setIfInBounds_group _ _ _ (by decide)]
    rfl
  simp only [packElement, hp]
  rw [if_neg (by decide)]
  rfl

theorem packElement_third {s : State} (z : Zchar) (h : s.work.gcnt = 2) :
    packElement z s =
      { s with
        work.grp := s.work.grp.set 2 z
        work.gcnt := 0
        work.idx := s.work.idx + 1
        work.out := s.work.out ++
          [Elem.ofByte (wordHighByte (packWord (finalWord s.work.idx s.work.input.length)
              s.work.grp[0] s.work.grp[1] z)),
           Elem.ofByte (wordLowByte (packWord (finalWord s.work.idx s.work.input.length)
              s.work.grp[0] s.work.grp[1] z))] } := by
  have hp : pushGroup z s = { s with work.grp := s.work.grp.set 2 z, work.gcnt := 3 } := by
    simp only [pushGroup, h]
    rw [show ((2 : Fin 4) : Nat) = 2 from rfl, setIfInBounds_group _ _ _ (by decide)]
    rfl
  simp only [packElement, hp]
  rw [if_pos (by decide)]
  simp [putWord, clearGroup, emit, advance]

theorem flushGroup_empty {s : State} (h : s.work.gcnt = 0) : flushGroup s = s := by simp [flushGroup, h]

theorem padGroup_one {s : State} (h : s.work.gcnt = 1) :
    padGroup s = { s with work.grp := #v[s.work.grp[0], 5, 5], work.gcnt := 3 } := by
  have hv : (Vector.ofFn fun i : Fin 3 => if i.val < s.work.gcnt.val then s.work.grp[i] else padZchar) =
      #v[s.work.grp[0], 5, 5] := by
    ext i hi
    rcases i with _ | _ | _ | i <;> simp [h, padZchar]
    omega
  simp only [padGroup, hv]

theorem padGroup_two {s : State} (h : s.work.gcnt = 2) :
    padGroup s = { s with work.grp := #v[s.work.grp[0], s.work.grp[1], 5], work.gcnt := 3 } := by
  have hv : (Vector.ofFn fun i : Fin 3 => if i.val < s.work.gcnt.val then s.work.grp[i] else padZchar) =
      #v[s.work.grp[0], s.work.grp[1], 5] := by
    ext i hi
    rcases i with _ | _ | _ | i <;> simp [h, padZchar]
    omega
  simp only [padGroup, hv]

/-! ### Starting a stage -/

theorem startUnpacker_odd {input : List Elem} (b : Bool) (s : State) (h : input.length % 2 = 1) :
    startUnpacker b input s = raise .oddLengthInput 0 0 input.length s := by
  simp [startUnpacker, h]

theorem startUnpacker_even {input : List Elem} (b : Bool) (s : State) (h : input.length % 2 = 0) :
    startUnpacker b input s =
      { s with
        engine := .unpacker b
        work.input := input
        work.idx := 0
        work.out := []
        work.termSeen := false } := by
  simp [startUnpacker, startStage, h]

theorem startDecoder_eq (m : EndMode) (input : List Elem) (s : State) :
    startDecoder m input s =
      { s with
        engine := .decoder m
        work.input := input
        work.idx := 0
        work.out := []
        work.alph := 0
        work.phase := 0 } := rfl

/-! ### The end of a decoding stage -/

theorem finishDecoder_escape {s : State} (m : EndMode) (h : s.work.phase ≠ 0) :
    finishDecoder m s = raise .truncatedEscape 0 0 s.work.input.length s := by
  unfold finishDecoder
  rw [if_pos (show s.work.phase ≠ phaseNormal from h)]

theorem finishDecoder_strict {s : State} (h : s.work.phase = 0) (ha : s.work.alph ≠ 0) :
    finishDecoder .strict s = raise .truncatedInput 0 0 s.work.input.length s := by
  unfold finishDecoder
  rw [if_neg (not_not_intro (show s.work.phase = phaseNormal from h)), if_pos ⟨ha, rfl⟩]

theorem finishDecoder_ok {s : State} {m : EndMode} (h : s.work.phase = 0)
    (ha : s.work.alph = 0 ∨ m = .lenient) : finishDecoder m s = respondOk s := by
  unfold finishDecoder
  rw [if_neg (not_not_intro (show s.work.phase = phaseNormal from h)), if_neg]
  rintro ⟨h0, hm⟩
  rcases ha with ha | ha
  · exact h0 ha
  · rw [hm] at ha
    cases ha

/-! ### `CONFIGURE` -/

theorem execConfigure_accepts {s : State} (alt : Bool) (h : s.request.version = 5) :
    execConfigure alt s =
      .next (loadAlphabet
        (if alt then s.request.data.map Elem.toZscii else s.params.defaultAlphabet.toList) s) := by
  unfold execConfigure
  rw [if_neg (show ¬ s.request.version ≠ supportedVersion from fun h' => h' h)]
  cases alt <;> rfl

theorem execConfigure_refuses {s : State} (alt : Bool) (h : s.request.version ≠ 5) :
    execConfigure alt s =
      .next (raise .unsupportedVersion (BitVec.ofNat 16 s.request.version) 0 0 s) := by
  unfold execConfigure
  rw [if_pos (show s.request.version ≠ supportedVersion from h)]

theorem loadAlphabet_length {entries : List Zscii} (s : State) (h : entries.length ≠ 78) :
    loadAlphabet entries s = raise .invalidAlphabetTable (BitVec.ofNat 16 entries.length) 0 0 s := by
  unfold loadAlphabet
  rw [dif_neg (by simpa [alphaN] using h)]

theorem loadAlphabet_table (table : AlphabetTable) (s : State) :
    loadAlphabet table.toList s = loadTable table s := by
  unfold loadAlphabet
  rw [dif_pos (by simp)]
  congr 1

theorem loadTable_accepts {table : AlphabetTable} {s : State}
    (h : escapeSlotWarning table = false ∨ s.params.a2Slot0Fatal = false) :
    loadTable table s =
      giveResponse ResponseState.success []
        { s with config := Configuration.ofTable table s.config.cfgVersion } := by
  unfold loadTable
  rw [if_neg]
  rintro ⟨hw, hf⟩
  rcases h with h | h <;> simp_all

/-- `DEFAULT_ALPHABET` passes every check, whatever `A2_SLOT0_FATAL` is (10_state.md R31; 40_configure.md R103). -/
theorem execConfigure_default {s : State} (h : s.request.version = 5) :
    execConfigure false s =
      .next (giveResponse ResponseState.success []
        { s with config := Configuration.ofTable s.params.defaultAlphabet s.config.cfgVersion }) := by
  rw [execConfigure_accepts false h, if_neg (by decide), loadAlphabet_table,
    loadTable_accepts (.inl (Params.escapeSlotWarning_default s.params))]

end Sys2Proof.Machine
end

