-- ==== Sys2Proof/Laws/PerInstr.lean ====
section
/-! SUPPORT. A law of every instruction as syntax: the word the encoder makes of it fits a mask and match of its
mnemonic's rows in spec/opcode_table.json. The patterns are written out here from that table. -/

namespace Sys2Proof.Laws

open Machine

/-- A mask and match of spec/opcode_table.json, in its format's width. -/
inductive Pattern where
  | key (mask value : BitVec 9)
  | unpackKey (mask value : BitVec 17)
  | zscii (mask value : BitVec 16)
  | cmd (mask value : BitVec 8)
  deriving DecidableEq, Repr

/-- The word is of the pattern's format and fits it. -/
def Pattern.fits : Pattern → CodeWord → Bool
  | .key m v, .key k => k &&& m == v
  | .unpackKey m v, .unpackKey k => k &&& m == v
  | .zscii m v, .zscii c => BitVec.ofNat 16 c &&& m == v
  | .cmd m v, .cmd b => b &&& m == v
  | .key _ _, .unpackKey _ | .key _ _, .zscii _ | .key _ _, .cmd _ => false
  | .unpackKey _ _, .key _ | .unpackKey _ _, .zscii _ | .unpackKey _ _, .cmd _ => false
  | .zscii _ _, .key _ | .zscii _ _, .unpackKey _ | .zscii _ _, .cmd _ => false
  | .cmd _ _, .key _ | .cmd _ _, .unpackKey _ | .cmd _ _, .zscii _ => false

/-- The word is one the opcode table numbers: it has 16 bits for an encoder element, which a wider port
exceeds (00_scope.md R8). -/
def inTable : CodeWord → Bool
  | .zscii c => c < 2 ^ 16
  | .key _ | .unpackKey _ | .cmd _ => true

/-- The rows of the instruction's mnemonic. -/
def patterns : Instr → List Pattern
  | .zcEscHi _ _ => [.key 0x180 0x080]
  | .zcEscLo _ _ => [.key 0x180 0x100]
  | .zcSpace _ => [.key 0x19F 0x000]
  | .zcRsv _ _ => [.key 0x19F 0x001, .key 0x19E 0x002]
  | .zcShiftA1 _ => [.key 0x19F 0x004]
  | .zcShiftA2 _ => [.key 0x19F 0x005]
  | .zcEscape => [.key 0x1FF 0x046]
  | .zcLit _ _ =>
    [.key 0x1FF 0x006, .key 0x1FF 0x026, .key 0x19F 0x007, .key 0x198 0x008, .key 0x190 0x010]
  | .pwAfterTerm _ => [.unpackKey 0x10000 0x10000]
  | .pwMid _ _ _ => [.unpackKey 0x18000 0x00000]
  | .pwFinal _ _ _ => [.unpackKey 0x18000 0x08000]
  | .encSpace => [.zscii 0xFFFF 0x0020]
  | .encSc1 _ _ => [.zscii 0xFC00 0x0000]
  | .encSc2 _ _ _ => [.zscii 0xFC00 0x0000]
  | .encEsc _ => [.zscii 0xFC00 0x0000]
  | .encOor _ =>
    [.zscii 0x8000 0x8000, .zscii 0xC000 0x4000, .zscii 0xE000 0x2000, .zscii 0xF000 0x1000,
     .zscii 0xF800 0x0800, .zscii 0xFC00 0x0400]
  | .configure _ => [.cmd 0xFF 0x00, .cmd 0xFF 0x08]
  | .encZ => [.cmd 0xFF 0x01]
  | .decZ => [.cmd 0xFF 0x02]
  | .pack => [.cmd 0xFF 0x03]
  | .unpack => [.cmd 0xFF 0x04]
  | .encodeZ => [.cmd 0xFF 0x05]
  | .decodeZ => [.cmd 0xFF 0x06]
  | .reserved _ =>
    [.cmd 0x07 0x07, .cmd 0x80 0x80, .cmd 0xC0 0x40, .cmd 0xE0 0x20, .cmd 0xF0 0x10, .cmd 0xFF 0x09,
     .cmd 0xFF 0x0A, .cmd 0xFF 0x0B, .cmd 0xFF 0x0C, .cmd 0xFF 0x0D, .cmd 0xFF 0x0E]

/-- The top six bits of a codepoint's encoder element are 0. -/
theorem codepoint_fits (c : Zscii) : (Pattern.zscii 0xFC00 0x0000).fits (.zscii c.toNat) = true := by
  have h : (BitVec.ofNat 16 c.toNat &&& 0xFC00 == (0x0000 : BitVec 16)) = _ :=
    mask_top_six (BitVec.ofNat 16 c.toNat) 0b111111 0b000000
  have h0 : (BitVec.ofNat 16 c.toNat).extractLsb' 10 6 = 0#6 := by
    rw [← lt_1024_iff, BitVec.lt_def]
    have := c.isLt
    simp
    omega
  simp only [Pattern.fits, h, h0]
  rfl

namespace EncodingFitsRow

/-- The word of a well-formed instruction fits one of its rows, where the table numbers the word at all: every
word but an encoder element of more than 16 bits, which is out of range. -/
def Statement (i : Instr) : Prop :=
  WellFormed i →
    (inTable (encode i) = true → (patterns i).any (fun p => p.fits (encode i)) = true) ∧
      (inTable (encode i) = false → ∃ c, i = .encOor c)

/-- An instruction whose word the table numbers. -/
theorem statement_of_inTable {i : Instr} (ht : inTable (encode i) = true)
    (h : WellFormed i → (patterns i).any (fun p => p.fits (encode i)) = true) : Statement i :=
  fun hw => ⟨fun _ => h hw, fun hf => by rw [ht] at hf; cases hf⟩

/-- A codepoint is numbered. -/
theorem codepoint_inTable (c : Zscii) : inTable (.zscii c.toNat) = true := by
  have := c.isLt
  simp [inTable]
  omega

theorem zcEscHi (alph : BitVec 2) (z : Zchar) : Statement (.zcEscHi alph z) := by
  refine statement_of_inTable rfl ?_
  revert alph z
  decide +kernel

theorem zcEscLo (alph : BitVec 2) (z : Zchar) : Statement (.zcEscLo alph z) := by
  refine statement_of_inTable rfl ?_
  revert alph z
  decide +kernel

theorem zcSpace (alph : BitVec 2) : Statement (.zcSpace alph) := by
  refine statement_of_inTable rfl ?_
  revert alph
  decide +kernel

theorem zcRsv (alph : BitVec 2) (z : Zchar) : Statement (.zcRsv alph z) := by
  refine statement_of_inTable rfl ?_
  revert alph z
  decide +kernel

theorem zcShiftA1 (alph : BitVec 2) : Statement (.zcShiftA1 alph) := by
  refine statement_of_inTable rfl ?_
  revert alph
  decide +kernel

theorem zcShiftA2 (alph : BitVec 2) : Statement (.zcShiftA2 alph) := by
  refine statement_of_inTable rfl ?_
  revert alph
  decide +kernel

theorem zcEscape : Statement .zcEscape := statement_of_inTable rfl fun _ => by decide

theorem zcLit (alph : BitVec 2) (z : Zchar) : Statement (.zcLit alph z) := by
  refine statement_of_inTable rfl ?_
  revert alph z
  decide +kernel

theorem pwAfterTerm (word : PackedWord) : Statement (.pwAfterTerm word) := statement_of_inTable rfl fun _ => by
  simp only [patterns, encode, Pattern.fits, List.any_cons, (mask_unpack _).1]
  simp [getLsbD_unpackKey]

theorem pwMid (z0 z1 z2 : Zchar) : Statement (.pwMid z0 z1 z2) := statement_of_inTable rfl fun _ => by
  simp only [patterns, encode, Pattern.fits, List.any_cons, (mask_unpack _).2.1]
  simp only [getLsbD_unpackKey, getLsbD_packWord]
  simp

theorem pwFinal (z0 z1 z2 : Zchar) : Statement (.pwFinal z0 z1 z2) := statement_of_inTable rfl fun _ => by
  simp only [patterns, encode, Pattern.fits, List.any_cons, (mask_unpack _).2.2]
  simp only [getLsbD_unpackKey, getLsbD_packWord]
  simp

theorem encSpace : Statement .encSpace := statement_of_inTable rfl fun _ => by decide

theorem encSc1 (c : Zscii) (z : Zchar) : Statement (.encSc1 c z) := statement_of_inTable (codepoint_inTable c) fun _ => by
  simp only [patterns, encode, List.any_cons, codepoint_fits, Bool.true_or]

theorem encSc2 (c : Zscii) (shift z : Zchar) : Statement (.encSc2 c shift z) := statement_of_inTable (codepoint_inTable c) fun _ => by
  simp only [patterns, encode, List.any_cons, codepoint_fits, Bool.true_or]

theorem encEsc (c : Zscii) : Statement (.encEsc c) := statement_of_inTable (codepoint_inTable c) fun _ => by
  simp only [patterns, encode, List.any_cons, codepoint_fits, Bool.true_or]

theorem encOor (c : Nat) : Statement (.encOor c) := fun hw => by
  refine ⟨fun ht => ?_, fun _ => ⟨c, rfl⟩⟩
  have hc : c < 2 ^ 16 := by simpa [inTable, encode] using ht
  have h1024 : 1024 ≤ c := by simpa [WellFormed, Instr.wellFormed, inZsciiRange] using hw
  have hne : (BitVec.ofNat 16 c).extractLsb' 10 6 ≠ 0#6 := by
    rw [Ne, ← lt_1024_iff, BitVec.lt_def]
    simp
    omega
  have hm := mask_top_six (BitVec.ofNat 16 c)
  have h1 : (BitVec.ofNat 16 c &&& 0x8000 == (0x8000 : BitVec 16)) = _ := hm 0b100000 0b100000
  have h2 : (BitVec.ofNat 16 c &&& 0xC000 == (0x4000 : BitVec 16)) = _ := hm 0b110000 0b010000
  have h3 : (BitVec.ofNat 16 c &&& 0xE000 == (0x2000 : BitVec 16)) = _ := hm 0b111000 0b001000
  have h4 : (BitVec.ofNat 16 c &&& 0xF000 == (0x1000 : BitVec 16)) = _ := hm 0b111100 0b000100
  have h5 : (BitVec.ofNat 16 c &&& 0xF800 == (0x0800 : BitVec 16)) = _ := hm 0b111110 0b000010
  have h6 : (BitVec.ofNat 16 c &&& 0xFC00 == (0x0400 : BitVec 16)) = _ := hm 0b111111 0b000001
  simp only [patterns, encode, Pattern.fits, List.any_cons, List.any_nil, h1, h2, h3, h4, h5, h6]
  revert hne
  generalize (BitVec.ofNat 16 c).extractLsb' 10 6 = hi
  revert hi
  decide +kernel

theorem configure (alt : Bool) : Statement (.configure alt) := statement_of_inTable rfl fun _ => by cases alt <;> decide

theorem encZ : Statement .encZ := statement_of_inTable rfl fun _ => by decide

theorem decZ : Statement .decZ := statement_of_inTable rfl fun _ => by decide

theorem pack : Statement .pack := statement_of_inTable rfl fun _ => by decide

theorem unpack : Statement .unpack := statement_of_inTable rfl fun _ => by decide

theorem encodeZ : Statement .encodeZ := statement_of_inTable rfl fun _ => by decide

theorem decodeZ : Statement .decodeZ := statement_of_inTable rfl fun _ => by decide

theorem reserved (cmd : BitVec 8) : Statement (.reserved cmd) := by
  refine statement_of_inTable rfl ?_
  revert cmd
  decide +kernel

end EncodingFitsRow

end Sys2Proof.Laws
end

