-- ==== Sys2Proof/Laws/Steps.lean ====
section
/-! SUPPORT. What a step does, by what the engine is doing, and how runs compose. -/

namespace Sys2Proof.Machine

/-! ### One step -/

theorem step_idle {s : State} (h : s.engine = .idle) (hr : s.requests = []) : step s = .next s := by
  simp [step, fetch, fetchRequest, h, hr]

theorem step_accept {s : State} {r : Request} {rest : List Request} (h : s.engine = .idle)
    (hr : s.requests = r :: rest) : step s = exec (decodeCommand r.cmd) (acceptRequest r rest s) := by
  simp [step, fetch, fetchRequest, h, hr, decode]

theorem step_encoder {s : State} {b : Bool} {c : Elem} (h : s.engine = .encoder b)
    (hc : s.work.input[s.work.idx]? = some c) : step s = exec (decodeZscii s.config.sc (zsciiPort s.params.zsciiInW c)) s := by
  simp [step, fetch, h, memRead, hc, fetchElement, decode]

theorem step_decoder {s : State} {m : EndMode} {e : Elem} {i : Instr} (h : s.engine = .decoder m)
    (he : s.work.input[s.work.idx]? = some e)
    (hi : decodeKey (zcharKey s.work.phase s.work.alph e.toZchar) = .ok i) : step s = exec i s := by
  simp [step, fetch, h, memRead, he, fetchElement, decode, hi]

theorem step_packer {s : State} {e : Elem} (h : s.engine = .packer)
    (he : s.work.input[s.work.idx]? = some e) : step s = .next (packElement e.toZchar s) := by
  simp [step, fetch, h, memRead, he, fetchElement]

theorem step_unpacker {s : State} {b : Bool} {high low : Elem} (h : s.engine = .unpacker b)
    (hh : s.work.input[s.work.idx]? = some high) (hl : s.work.input[s.work.idx + 1]? = some low) :
    step s =
      exec (decodeUnpackKey (unpackKey s.work.termSeen (wordOfBytes high.toByte low.toByte))) s := by
  simp [step, fetch, h, memRead, hh, fetchElement, fetchPackedWord, memReadNext, hl, decode]

theorem step_finish {s : State} (h : s.engine ≠ .idle) (hi : s.work.input.length ≤ s.work.idx) :
    step s = .next (finishStage s) := by
  have hm : memRead s = none := by simp [memRead, hi]
  unfold step fetch
  cases he : s.engine <;> simp_all

/-- Every step is one of these: the block is idle, and takes a request or has none; or a stage runs, and
consumes its next element or is at its end. -/
theorem step_cases (s : State) :
    (s.engine = .idle ∧ s.requests = [] ∧ step s = .next s) ∨
    (∃ r rest, s.engine = .idle ∧ s.requests = r :: rest ∧
      step s = exec (decodeCommand r.cmd) (acceptRequest r rest s)) ∨
    (s.engine ≠ .idle ∧ s.work.input.length ≤ s.work.idx ∧ step s = .next (finishStage s)) ∨
    (∃ b c, s.engine = .encoder b ∧ s.work.input[s.work.idx]? = some c ∧
      step s = exec (decodeZscii s.config.sc (zsciiPort s.params.zsciiInW c)) s) ∨
    (∃ m e i, s.engine = .decoder m ∧ s.work.input[s.work.idx]? = some e ∧
      decodeKey (zcharKey s.work.phase s.work.alph e.toZchar) = .ok i ∧ step s = exec i s) ∨
    (∃ m e, s.engine = .decoder m ∧ s.work.input[s.work.idx]? = some e ∧
      decodeKey (zcharKey s.work.phase s.work.alph e.toZchar) = .error .unreachableKey ∧
      step s = .refused .unreachableKey) ∨
    (∃ e, s.engine = .packer ∧ s.work.input[s.work.idx]? = some e ∧ step s = .next (packElement e.toZchar s)) ∨
    (∃ b high low, s.engine = .unpacker b ∧ s.work.input[s.work.idx]? = some high ∧
      s.work.input[s.work.idx + 1]? = some low ∧
      step s = exec (decodeUnpackKey (unpackKey s.work.termSeen (wordOfBytes high.toByte low.toByte))) s) ∨
    (∃ b high, s.engine = .unpacker b ∧ s.work.input[s.work.idx]? = some high ∧
      s.work.input[s.work.idx + 1]? = none ∧ step s = .refused .splitWord) := by
  by_cases hid : s.engine = .idle
  · cases hr : s.requests with
    | nil => exact .inl ⟨hid, rfl, step_idle hid hr⟩
    | cons r rest => exact .inr (.inl ⟨r, rest, hid, rfl, step_accept hid hr⟩)
  · by_cases hlen : s.work.input.length ≤ s.work.idx
    · exact .inr (.inr (.inl ⟨hid, hlen, step_finish hid hlen⟩))
    · obtain ⟨e, he⟩ : ∃ e, s.work.input[s.work.idx]? = some e := ⟨_, List.getElem?_eq_getElem (by omega)⟩
      cases hen : s.engine with
      | idle => exact absurd hen hid
      | encoder b => exact .inr (.inr (.inr (.inl ⟨b, e, rfl, he, step_encoder hen he⟩)))
      | decoder m =>
        cases hd : decodeKey (zcharKey s.work.phase s.work.alph e.toZchar) with
        | ok i => exact .inr (.inr (.inr (.inr (.inl ⟨m, e, i, rfl, he, hd, step_decoder hen he hd⟩))))
        | error x =>
          cases x
          refine .inr (.inr (.inr (.inr (.inr (.inl ⟨m, e, rfl, he, hd, ?_⟩)))))
          simp [step, fetch, hen, memRead, he, fetchElement, decode, hd]
      | packer => exact .inr (.inr (.inr (.inr (.inr (.inr (.inl ⟨e, rfl, he, step_packer hen he⟩))))))
      | unpacker b =>
        cases hl : s.work.input[s.work.idx + 1]? with
        | some low =>
          exact .inr (.inr (.inr (.inr (.inr (.inr (.inr (.inl ⟨b, e, low, rfl, he, rfl, step_unpacker hen he hl⟩)))))))
        | none =>
          refine .inr (.inr (.inr (.inr (.inr (.inr (.inr (.inr ⟨b, e, rfl, he, rfl, ?_⟩)))))))
          simp [step, fetch, hen, memRead, he, fetchElement, fetchPackedWord, memReadNext, hl]

/-! ### Runs -/

/-- `n` steps from `s` end in `t`. -/
def Runs (n : Nat) (s t : State) : Prop := Host.Core.run Sys2Proof.core n s = .next t

theorem Runs.zero (s : State) : Runs 0 s s := rfl

theorem Runs.succ {n : Nat} {s t u : State} (h : step s = .next t) (hr : Runs n t u) : Runs (n + 1) s u := by
  have hs : Sys2Proof.core.step s = .next t := h
  simp only [Runs, Host.Core.run, hs]
  exact hr

theorem Runs.one {s t : State} (h : step s = .next t) : Runs 1 s t := Runs.succ h (Runs.zero t)

theorem Runs.trans {m n : Nat} {s t u : State} (h : Runs m s t) (hr : Runs n t u) : Runs (m + n) s u := by
  induction m generalizing s with
  | zero =>
    have : s = t := Host.Outcome.next.inj h
    subst this
    simpa using hr
  | succ m ih =>
    cases hs : step s with
    | next v =>
      have hv : Runs m v t := by
        have hs' : Sys2Proof.core.step s = .next v := hs
        simpa only [Runs, Host.Core.run, hs'] using h
      rw [Nat.succ_add]
      exact Runs.succ hs (ih hv)
    | fault f => cases f
    | refused f =>
      have hs' : Sys2Proof.core.step s = .refused f := hs
      simp only [Runs, Host.Core.run, hs'] at h
      exact absurd h (by simp)

/-- A ready block stays as it is. -/
theorem Runs.idle {s : State} (h : Safety.Ready s) (n : Nat) : Runs n s s := by
  induction n with
  | zero => exact Runs.zero s
  | succ n ih => exact Runs.succ (step_idle h.1 h.2) ih

/-- A run that ends in a ready block within `n` steps is the run of `n` steps. -/
theorem Runs.pad {k n : Nat} {s t : State} (h : Runs k s t) (ht : Safety.Ready t) (hk : k ≤ n) : Runs n s t := by
  have := h.trans (Runs.idle ht (n - k))
  rwa [Nat.add_sub_cancel' hk] at this

end Sys2Proof.Machine
end

