-- ==== Sys2Proof/Tests/Slice0.lean ====
section
/-! SUPPORT. Small tests of the model. Expected results come from spec/30_encoding.md, spec/95_test_vectors.md and the
examples of the rules, or are computed by hand from the rules. -/

namespace Sys2Proof.Tests

open Machine Reference Safety Claims

/-! ### Helpers -/

/-- A small shortcut map, enough for one step of the encoder: space, `A` and `a`. -/
def smallMap : ShortcutMap := [(0x020, .one 0), (0x041, .two 4 6), (0x061, .one 6)]

/-- A block with the default table and the small map. -/
def small : State :=
  { State.reset with
    config := { alpha := defaultAlphabet, sc := smallMap, cfgVersion := 5, warnA2s0 := false } }

/-- `small` with a stage running on `input` at element `idx`. -/
def running (engine : Engine) (input : List Elem) (idx : Nat) : State :=
  { small with engine := engine, work.input := input, work.idx := idx }

/-- `running` in the decoder, with its registers. -/
def decoding (alph phase : BitVec 2) (latch : Zchar) (input : List Elem) (idx : Nat) : State :=
  { small with
    engine := .decoder .strict
    work.input := input
    work.idx := idx
    work.alph := alph
    work.phase := phase
    work.escHiLatch := latch }

/-- `running` in the encoder, on the narrowest input port, of 11 bits (00_scope.md R8). -/
def encodingNarrow (input : List Elem) (idx : Nat) : State :=
  { running (.encoder false) input idx with
    params := { defaultParams with zsciiInW := 11, zsciiInW_wide := by decide } }

/-- `running` in the encoder, on an input port of 20 bits. -/
def encodingWide (input : List Elem) (idx : Nat) : State :=
  { running (.encoder false) input idx with
    params := { defaultParams with zsciiInW := 20, zsciiInW_wide := by decide } }

/-- An idle block with one request in line. -/
def asked (cmd : BitVec 8) (version : Nat) (data : List Elem) : State :=
  { small with requests := [{ cmd := cmd, version := version, data := data }] }

/-- The next state, if there is one. -/
def after (s : State) : Option State :=
  match step s with
  | .next t => some t
  | .fault _ => none
  | .refused _ => none

/-- The step is refused. -/
def stops (s : State) : Bool :=
  match step s with
  | .next _ => false
  | .fault _ => false
  | .refused _ => true

/-- `IDX` and `OUT` after the step. -/
def idxOut (s : State) : Option (Nat × List Elem) := (after s).map fun t => (t.work.idx, t.work.out)

/-- `ALPH`, `PHASE` and `OUT` after the step. -/
def alphPhaseOut (s : State) : Option (BitVec 2 × BitVec 2 × List Elem) :=
  (after s).map fun t => (t.work.alph, t.work.phase, t.work.out)

/-- The engine and the responses after the step. -/
def engineResponses (s : State) : Option (Engine × List Response) :=
  (after s).map fun t => (t.engine, t.responses)

/-- The engine after the step, and its input. -/
def engineInput (s : State) : Option (Engine × List Elem) := (after s).map fun t => (t.engine, t.work.input)

/-! ### Decoding: a word of every instruction, written out from 30_encoding.md R72, R75, R78 and R85 -/

theorem test_decode_zcEscHi : decodeKey 0b01_10_00100 = .ok (.zcEscHi 2 4) := by decide
theorem test_decode_zcEscLo : decodeKey 0b10_10_11011 = .ok (.zcEscLo 2 27) := by decide
theorem test_decode_zcSpace : decodeKey 0b00_01_00000 = .ok (.zcSpace 1) := by decide
theorem test_decode_zcRsv_one : decodeKey 0b00_00_00001 = .ok (.zcRsv 0 1) := by decide
theorem test_decode_zcRsv_three : decodeKey 0b00_10_00011 = .ok (.zcRsv 2 3) := by decide
theorem test_decode_zcShiftA1 : decodeKey 0b00_10_00100 = .ok (.zcShiftA1 2) := by decide
theorem test_decode_zcShiftA2 : decodeKey 0b00_01_00101 = .ok (.zcShiftA2 1) := by decide
theorem test_decode_zcEscape : decodeKey 0b00_10_00110 = .ok .zcEscape := by decide
theorem test_decode_zcLit_six : decodeKey 0b00_01_00110 = .ok (.zcLit 1 6) := by decide
theorem test_decode_zcLit_last : decodeKey 0b00_10_11111 = .ok (.zcLit 2 31) := by decide
theorem test_decode_phase_three : decodeKey 0b11_00_00000 = .error .unreachableKey := by decide
theorem test_decode_alph_three : decodeKey 0b00_11_00110 = .error .unreachableKey := by decide
theorem test_decode_pwAfterTerm :
    decodeUnpackKey 0b1_0_00110_00101_00101 = .pwAfterTerm 0x18A5 := by decide
theorem test_decode_pwMid : decodeUnpackKey 0b0_0_00110_00111_00101 = .pwMid 6 7 5 := by decide
theorem test_decode_pwFinal : decodeUnpackKey 0b0_1_10010_00101_00111 = .pwFinal 18 5 7 := by decide
theorem test_decode_encSpace : decodeZscii smallMap 0x0020 = .encSpace := by decide
theorem test_decode_encSc1 : decodeZscii smallMap 0x0061 = .encSc1 0x061 6 := by decide
theorem test_decode_encSc2 : decodeZscii smallMap 0x0041 = .encSc2 0x041 4 6 := by decide
theorem test_decode_encEsc : decodeZscii smallMap 0x03FF = .encEsc 0x3FF := by decide
theorem test_decode_encOor : decodeZscii smallMap 0x0400 = .encOor 0x0400 := by decide
theorem test_decode_encOor_top : decodeZscii smallMap 0xFFFF = .encOor 0xFFFF := by decide
/-- R78: no bit above bit 9 may be set, on a port of any width. -/
theorem test_decode_encOor_wide : decodeZscii smallMap 0x10061 = .encOor 0x10061 := by decide
theorem test_decode_configure :
    decodeCommand 0b0000_0_000 = .configure false ∧ decodeCommand 0b0000_1_000 = .configure true := by decide
theorem test_decode_stages :
    decodeCommand 0b0000_0_001 = .encZ ∧ decodeCommand 0b0000_0_010 = .decZ ∧
      decodeCommand 0b0000_0_011 = .pack ∧ decodeCommand 0b0000_0_100 = .unpack ∧
      decodeCommand 0b0000_0_101 = .encodeZ ∧ decodeCommand 0b0000_0_110 = .decodeZ := by decide
theorem test_decode_reserved :
    decodeCommand 0b0000_0_111 = .reserved 0x07 ∧ decodeCommand 0b0000_1_001 = .reserved 0x09 ∧
      decodeCommand 0b0001_0_000 = .reserved 0x10 := by decide

/-- The table's numbering: a decode key and a command byte. -/
theorem test_decodeTableWord :
    decodeTableWord 16 0x046 = some .zcEscape ∧ decodeTableWord 8 0x06 = some .decodeZ ∧
      decodeTableWord 24 0x10000 = some (.pwAfterTerm 0) ∧ decodeTableWord 16 0x0400 = some (.encOor 0x400) := by
  decide

/-- `step` runs the word placed by `withFetchWord` as the first instruction after reset: `ENC_SPACE`. -/
theorem test_withFetchWord : idxOut (State.reset.withFetchWord 16 0x0020) = some (1, [0]) := by decide

/-! ### Well-formedness: each check refuses an ill-formed term -/

theorem test_wf_zcRsv : (Instr.zcRsv 0 4).wellFormed = false ∧ (Instr.zcRsv 0 0).wellFormed = false := by decide
theorem test_wf_zcLit : (Instr.zcLit 0 5).wellFormed = false ∧ (Instr.zcLit 2 6).wellFormed = false := by decide
theorem test_wf_encSc1 :
    (Instr.encSc1 0x020 6).wellFormed = false ∧ (Instr.encSc1 0x061 5).wellFormed = false := by decide
theorem test_wf_encSc2_space : (Instr.encSc2 0x020 4 6).wellFormed = false := by decide
theorem test_wf_encSc2_shift : (Instr.encSc2 0x041 3 6).wellFormed = false := by decide
theorem test_wf_encSc2_escape :
    (Instr.encSc2 0x041 5 6).wellFormed = false ∧ (Instr.encSc2 0x041 4 5).wellFormed = false := by decide
theorem test_wf_encEsc : (Instr.encEsc 0x020).wellFormed = false := by decide
theorem test_wf_encOor : (Instr.encOor 1023).wellFormed = false := by decide
theorem test_wf_reserved : (Instr.reserved 0x06).wellFormed = false := by decide

/-! ### Which tables may stand as `DEFAULT_ALPHABET` (10_state.md R31) -/

/-- A fixed entry must stay: `d` at index 3, NUL at index 52, CR at 53. -/
theorem test_legalDefault_fixed :
    legalDefault (defaultAlphabet.set 3 0x61) = false ∧ legalDefault (defaultAlphabet.set 52 0x78) = false ∧
      legalDefault (defaultAlphabet.set 53 0x0A) = false := by decide
/-- A block must keep its kind: no `A` in A0, no `a` in A1, no letter and no space in A2. -/
theorem test_legalDefault_blocks :
    legalDefault (defaultAlphabet.set 0 0x41) = false ∧ legalDefault (defaultAlphabet.set 26 0x61) = false ∧
      legalDefault (defaultAlphabet.set 77 0x5A) = false ∧ legalDefault (defaultAlphabet.set 77 0x20) = false := by
  decide
/-- The rows the source does not fix may differ: `b` before `a`, `Z` at index 26, `1` before `0`, `;` at index 77. -/
theorem test_legalDefault_free :
    legalDefault ((((((defaultAlphabet.set 0 0x62).set 1 0x61).set 26 0x5A).set 54 0x31).set 55 0x30).set 77 0x3B) =
      true := by decide

/-! ### One step of every instruction -/

/-- R161's example `[05 06 04 1B]`: the high operand is latched, whatever it is. -/
theorem test_step_zcEscHi :
    (after (decoding 2 1 0 [5, 6, 4, 0x1B] 2)).map (fun t => (t.work.escHiLatch, t.work.phase, t.work.out)) =
      some (4, 2, []) := by decide
/-- R161: `(4 << 5) | 0x1B = 0x9B`. -/
theorem test_step_zcEscLo : alphPhaseOut (decoding 2 2 4 [5, 6, 4, 0x1B] 3) = some (0, 0, [0x9B]) := by
  decide
/-- R152: `[4, 0]` loses the shift. -/
theorem test_step_zcSpace : alphPhaseOut (decoding 1 0 0 [4, 0] 1) = some (0, 0, [0x20]) := by decide
/-- R153: `[5, 3]` reports alphabet 2. -/
theorem test_step_zcRsv :
    engineResponses (decoding 2 0 0 [5, 3] 1) =
      some (.idle, [{ status := 8, errValue := 3, errAlph := 2, errPos := 1, warn := false, out := [] }]) := by
  decide
/-- R154: the last shift wins. -/
theorem test_step_zcShiftA1 : alphPhaseOut (decoding 2 0 0 [5, 4] 1) = some (1, 0, []) := by decide
theorem test_step_zcShiftA2 : alphPhaseOut (decoding 1 0 0 [4, 5] 1) = some (2, 0, []) := by decide
/-- R157: `ALPH` stays 2. -/
theorem test_step_zcEscape : alphPhaseOut (decoding 2 0 0 [5, 6] 1) = some (2, 1, []) := by decide
/-- R158: `[04 06]` is `A`; `[05 07]` is CR. -/
theorem test_step_zcLit_a1 : alphPhaseOut (decoding 1 0 0 [4, 6] 1) = some (0, 0, [0x41]) := by decide
theorem test_step_zcLit_a2 : alphPhaseOut (decoding 2 0 0 [5, 7] 1) = some (0, 0, [0x0D]) := by decide
/-- R193: `80 00 80 00` fails at byte 2. -/
theorem test_step_pwAfterTerm :
    engineResponses { running (.unpacker false) [0x80, 0, 0x80, 0] 2 with work.termSeen := true } =
      some (.idle, [{ status := 11, errValue := 0, errAlph := 0, errPos := 2, warn := false, out := [] }]) := by
  decide
/-- R194: `18 E5` is `06 07 05`. -/
theorem test_step_pwMid : idxOut (running (.unpacker false) [0x18, 0xE5] 0) = some (2, [6, 7, 5]) := by
  decide
/-- L1-3, word 5: `C8 A7` is `12 05 07` and the terminator. -/
theorem test_step_pwFinal :
    (after (running (.unpacker false) [0xC8, 0xA7] 0)).map (fun t => (t.work.termSeen, t.work.out)) =
      some (true, [0x12, 5, 7]) := by decide
theorem test_step_encSpace : idxOut (running (.encoder false) [0x20] 0) = some (1, [0]) := by decide
/-- R133's example. -/
theorem test_step_encSc1 : idxOut (running (.encoder false) [0x61] 0) = some (1, [6]) := by decide
theorem test_step_encSc2 : idxOut (running (.encoder false) [0x41] 0) = some (1, [4, 6]) := by decide
/-- R135's example, appended to what stands in `OUT` (R137). -/
theorem test_step_encEsc :
    idxOut { running (.encoder false) [0x9B] 0 with work.out := [6] } = some (1, [6, 5, 6, 4, 0x1B]) := by
  decide
/-- R136's example `[61 400 62]`. -/
theorem test_step_encOor :
    engineResponses (running (.encoder false) [0x61, 0x400, 0x62] 1) =
      some (.idle, [{ status := 6, errValue := 0x400, errAlph := 0, errPos := 1, warn := false, out := [] }]) := by
  decide
/-- D4 (92_eei_decisions.md): the same on the narrowest port, which can present 0x400. -/
theorem test_step_encOor_narrow :
    engineResponses (encodingNarrow [0x61, 0x400] 1) =
        some (.idle, [{ status := 6, errValue := 0x400, errAlph := 0, errPos := 1, warn := false, out := [] }]) ∧
      idxOut (encodingNarrow [0x61, 0x400] 0) = some (1, [6]) := by decide
/-- R8, R78: 0x10061 on a port of 20 bits is out of range, not `a`. What `ERR_VALUE` is, the spec does not say. -/
theorem test_step_encOor_wide :
    (after (encodingWide [0x10061] 0)).map
        (fun t => (t.engine, t.response.status, t.response.errAlph, t.response.errPos, t.work.out)) =
      some (.idle, 6, 0, 0, []) := by decide
/-- L2-1 row 4: the version check is on the full value. -/
theorem test_step_configure_version :
    engineResponses (asked 0x00 65541 []) =
      some (.idle, [{ status := 1, errValue := 5, errAlph := 0, errPos := 0, warn := false, out := [] }]) := by
  decide
/-- L2-1 row 10: `D[52 := 78]` loads, with the warning. -/
theorem test_step_configure_warns :
    (after (asked 0x08 5 ((defaultAlphabet.set 52 0x78).toList.map Elem.ofZscii))).map
        (fun t => (t.config.warnA2s0, t.response.status, scGet t.config.sc 0x78)) =
      some (true, 0, some (.one 0x1D)) := by decide +kernel
theorem test_step_encZ : engineInput (asked 0x01 0 [0x61]) = some (.encoder false, [0x61]) := by decide
theorem test_step_decZ : engineInput (asked 0x02 0 [6]) = some (.decoder .strict, [6]) := by decide
theorem test_step_pack : engineInput (asked 0x03 0 [6]) = some (.packer, [6]) := by decide
theorem test_step_unpack : engineInput (asked 0x04 0 [0x98, 0xA5]) = some (.unpacker false, [0x98, 0xA5]) := by
  decide
/-- R191's example: the odd length is reported, not the trailing byte. -/
theorem test_step_unpack_odd :
    engineResponses (asked 0x04 0 [0x98, 0xA5, 0x18]) =
      some (.idle, [{ status := 10, errValue := 0, errAlph := 0, errPos := 3, warn := false, out := [] }]) := by
  decide
theorem test_step_encodeZ : engineInput (asked 0x05 0 [0x61]) = some (.encoder true, [0x61]) := by decide
theorem test_step_decodeZ : engineInput (asked 0x06 0 [0x98, 0xA5]) = some (.unpacker true, [0x98, 0xA5]) := by
  decide
/-- R238: command byte 0x07. -/
theorem test_step_reserved :
    engineResponses (asked 0x07 5 [1, 2]) =
      some (.idle, [{ status := 12, errValue := 7, errAlph := 0, errPos := 0, warn := false, out := [] }]) := by
  decide

/-! ### The steps without an instruction -/

/-- R184: the third of three Z-chars `06 07 08` completes the final word, `98 E8`. -/
theorem test_step_packer_final :
    idxOut { running .packer [6, 7, 8] 2 with work.grp := #v[6, 7, 0], work.gcnt := 2 } =
      some (3, [0x98, 0xE8]) := by decide
/-- R182: `06` is padded to `06 05 05`, `98 A5`. -/
theorem test_step_packer_padding :
    engineResponses { running .packer [6] 1 with work.grp := #v[6, 0, 0], work.gcnt := 1 } =
      some (.idle, [{ status := 0, errValue := 0, errAlph := 0, errPos := 0, warn := false, out := [0x98, 0xA5] }]) := by
  decide
/-- R165 and R162: `[06 05]` is `TruncatedInput` at 2, `[05 06 03]` is `TruncatedEscape` at 3. -/
theorem test_step_decoder_end :
    engineResponses (decoding 2 0 0 [6, 5] 2) =
        some (.idle, [{ status := 9, errValue := 0, errAlph := 0, errPos := 2, warn := false, out := [] }]) ∧
      engineResponses (decoding 2 2 3 [5, 6, 3] 3) =
        some (.idle, [{ status := 7, errValue := 0, errAlph := 0, errPos := 3, warn := false, out := [] }]) := by
  decide
/-- U3: an unreachable key stops. -/
theorem test_step_unreachable : stops (decoding 0 3 0 [0] 0) = true ∧ stops (decoding 3 0 0 [7] 0) = true := by
  decide
/-- R94: `ROUNDTRIP zscii=[61]` goes on with `DECODE_Z bytes=[98 A5]`, and stops after a failure. -/
theorem test_roundTrip :
    roundTripSecond { status := 0, errValue := 0, errAlph := 0, errPos := 0, warn := false, out := [0x98, 0xA5] } =
        some (.decodeZ [0x98, 0xA5]) ∧
      roundTripSecond { status := 6, errValue := 0x400, errAlph := 0, errPos := 0, warn := false, out := [] } =
        none := by decide

/-! ### Witnesses: for every statement with hypotheses, states and operands that meet all of them together, one for
each clause, at a boundary of its range -/

/-- A block as after reset, with a stage running on `input` at element `idx`. -/
def block (engine : Engine) (input : List Elem) (idx : Nat) : State :=
  { State.reset with engine := engine, work.input := input, work.idx := idx }

theorem reset_shortcuts : State.reset.config.sc = deriveShortcuts State.reset.config.alpha := by
  simp only [State.reset, State.resetWith, Configuration.ofTable]

/-- Shortcuts of the default table, by 40_configure.md R114. -/
theorem reset_shortcut_values :
    scGet State.reset.config.sc 0x061 = some (.one 6) ∧ scGet State.reset.config.sc 0x07A = some (.one 31) ∧
      scGet State.reset.config.sc 0x041 = some (.two 4 6) ∧ scGet State.reset.config.sc 0x00D = some (.two 5 7) ∧
      scGet State.reset.config.sc 0x029 = some (.two 5 31) ∧ scGet State.reset.config.sc 0x3FF = none ∧
      scGet State.reset.config.sc 0x020 = some (.one 0) := by decide +kernel

theorem witness_DecodeOfEncode :
    (WellFormed (.encSc2 0x041 4 6) ∧ selectedBy smallMap (.encSc2 0x041 4 6) = true) ∧
      (WellFormed (.zcLit 1 6) ∧ selectedBy smallMap (.zcLit 1 6) = true) ∧
      WellFormed (.reserved 0xFF) ∧ selectedBy smallMap (.reserved 0xFF) = true := by decide

theorem witness_EncodeOfDecode :
    decode (deriveShortcuts defaultAlphabet) (.key 0x17F) = .ok (.zcEscLo 3 31) ∧
      decode (deriveShortcuts defaultAlphabet) (.cmd 0xFF) = .ok (.reserved 0xFF) := by decide

theorem witness_KeyRowsPartitionReachableKeys :
    keyPhase (0x15F : BitVec 9) ≤ 2 ∧ keyAlph (0x15F : BitVec 9) ≤ 2 := by decide

theorem witness_StepRunsDecodedInstruction :
    ((asked 0x06 0 []).engine = .idle ∧
      (asked 0x06 0 []).requests = { cmd := 0x06, version := 0, data := [] } :: [] ∧
      decode (asked 0x06 0 []).config.sc (.cmd 0x06) = .ok .decodeZ) ∧
    ((running (.encoder true) [0x400] 0).engine = .encoder true ∧ Reads (running (.encoder true) [0x400] 0) 0x400 ∧
      decode (running (.encoder true) [0x400] 0).config.sc (.zscii 0x400) = .ok (.encOor 0x400)) ∧
    ((decoding 2 0 0 [5, 6] 1).engine = .decoder .strict ∧ Reads (decoding 2 0 0 [5, 6] 1) 6 ∧
      decode (decoding 2 0 0 [5, 6] 1).config.sc (.key (0#2 ++ 2#2 ++ BitVec.ofNat 5 6)) = .ok .zcEscape) ∧
    ((running (.unpacker false) [0x98, 0xA5] 0).engine = .unpacker false ∧
      Reads (running (.unpacker false) [0x98, 0xA5] 0) 0x98 ∧
      (running (.unpacker false) [0x98, 0xA5] 0).work.input[0 + 1]? = some 0xA5 ∧
      decode (running (.unpacker false) [0x98, 0xA5] 0).config.sc
        (.unpackKey (BitVec.ofBool false ++ (BitVec.ofNat 8 0x98 ++ BitVec.ofNat 8 0xA5 : BitVec 16))) =
        .ok (.pwFinal 6 5 5)) :=
  ⟨⟨rfl, rfl, by decide⟩, ⟨rfl, rfl, by decide⟩, ⟨rfl, rfl, by decide⟩, ⟨rfl, rfl, rfl, by decide⟩⟩

theorem witness_StepsWithoutInstruction :
    Ready small ∧ ((running .packer [31] 0).engine = .packer ∧ Reads (running .packer [31] 0) 31) ∧
      (running .packer [] 0).engine ≠ .idle ∧
      (running .packer [] 0).work.input.length ≤ (running .packer [] 0).work.idx :=
  ⟨⟨rfl, rfl⟩, ⟨rfl, rfl⟩, by decide, by decide⟩

theorem witness_UnreachableKeysAreRefused :
    ((decoding 0 3 0 [0] 0).engine = .decoder .strict ∧ Reads (decoding 0 3 0 [0] 0) 0 ∧
      (decoding 0 3 0 [0] 0).work.phase = 3) ∧
    (Reads (decoding 3 0 0 [6] 0) 6 ∧ (decoding 3 0 0 [6] 0).work.phase = 0 ∧
      (decoding 3 0 0 [6] 0).work.alph = 3 ∧ BitVec.ofNat 5 6 = 6#5) ∧
    (6 : Zchar) ≤ 6 :=
  ⟨⟨rfl, rfl, rfl⟩, ⟨rfl, rfl, rfl, rfl⟩, by decide⟩

theorem witness_SpaceAppendsZcharZero :
    (running (.encoder true) [0x20] 0).engine = .encoder true ∧ Reads (running (.encoder true) [0x20] 0) 0x0020 :=
  ⟨rfl, rfl⟩

/-- `a`, the first slot of A0, and `z`, its last. -/
theorem witness_OneZcharShortcutStep :
    State.reset.config.sc = deriveShortcuts State.reset.config.alpha ∧
      Reads (block (.encoder false) [0x61, 0x7A] 0) 0x61 ∧ Reads (block (.encoder false) [0x61, 0x7A] 1) 0x7A ∧
      scGet State.reset.config.sc (BitVec.ofNat 10 0x61) = some (.one 6) ∧
      scGet State.reset.config.sc (BitVec.ofNat 10 0x7A) = some (.one 31) ∧
      (0x61 : Nat) < 1024 ∧ (0x61 : Nat) ≠ 0x0020 :=
  ⟨reset_shortcuts, rfl, rfl, reset_shortcut_values.1, reset_shortcut_values.2.1, by decide, by decide⟩

/-- `A`, the first slot of A1; CR, the first of A2 that has a shortcut; `)`, the last of A2. -/
theorem witness_TwoZcharShortcutStep :
    Reads (block (.encoder false) [0x41, 0x0D, 0x29] 0) 0x41 ∧
      scGet State.reset.config.sc (BitVec.ofNat 10 0x41) = some (.two 4 6) ∧
      scGet State.reset.config.sc (BitVec.ofNat 10 0x0D) = some (.two 5 7) ∧
      scGet State.reset.config.sc (BitVec.ofNat 10 0x29) = some (.two 5 31) ∧
      State.reset.config.sc = deriveShortcuts State.reset.config.alpha ∧ (0x41 : Nat) < 1024 :=
  ⟨rfl, reset_shortcut_values.2.2.1, reset_shortcut_values.2.2.2.1, reset_shortcut_values.2.2.2.2.1,
    reset_shortcuts, by decide⟩

/-- NUL and 0x3FF have no shortcut; 0x3FF stands only at index 52 of the second table. -/
theorem witness_EscapeStep :
    (Reads (block (.encoder false) [0x000, 0x3FF] 0) 0x000 ∧ Reads (block (.encoder false) [0x000, 0x3FF] 1) 0x3FF ∧
      scGet State.reset.config.sc (BitVec.ofNat 10 0x3FF) = none ∧ (0x3FF : Nat) < 1024) ∧
    (0x3FF : Zscii) ≠ 0x020 ∧ (∀ i : Fin 78, (defaultAlphabet.set 52 0x3FF)[i] = 0x3FF → i = 52) :=
  ⟨⟨rfl, rfl, reset_shortcut_values.2.2.2.2.2.1, by decide⟩, by decide, by decide⟩

/-- The least element out of range, the greatest of 16 bits, and on a port of 20 bits the least above them. -/
theorem witness_OutOfRangeAbortsEncoder :
    (Reads (encodingNarrow [0x400] 0) 0x400 ∧ (1024 : Nat) ≤ 0x400 ∧
      0x400 < 2 ^ (encodingNarrow [0x400] 0).params.zsciiInW) ∧
    (Reads (running (.encoder false) [0x400, 0xFFFF] 1) 0xFFFF ∧ (1024 : Nat) ≤ 0xFFFF ∧
      0xFFFF < 2 ^ (running (.encoder false) [0x400, 0xFFFF] 1).params.zsciiInW) ∧
    Reads (encodingWide [0x10000] 0) 0x10000 ∧ (1024 : Nat) ≤ 0x10000 ∧
      0x10000 < 2 ^ (encodingWide [0x10000] 0).params.zsciiInW :=
  ⟨⟨rfl, by decide, by decide⟩, ⟨rfl, by decide, by decide⟩, rfl, by decide, by decide⟩

theorem witness_LiteralEmitsTableEntry :
    (WellFormed (.zcLit 0 6) ∧ (0 : BitVec 2) ≤ 2) ∧ WellFormed (.zcLit 2 7) ∧ WellFormed (.zcLit 2 31) := by decide

theorem witness_NormalPhaseTransitions :
    (Reads (decoding 2 0 0 [0] 0) 0 ∧ BitVec.ofNat 5 0 = (0 : Zchar) ∧ (decoding 2 0 0 [0] 0).work.phase = 0) ∧
      Reads (decoding 1 0 0 [4] 0) 4 ∧ Reads (decoding 1 0 0 [5] 0) 5 ∧
      (Reads (decoding 2 0 0 [6] 0) 6 ∧ (decoding 2 0 0 [6] 0).work.alph = 2) ∧
      (Reads (decoding 1 0 0 [6] 0) 6 ∧ (decoding 1 0 0 [6] 0).work.alph = 1) ∧
      (Reads (decoding 2 0 0 [31] 0) 31 ∧ (decoding 2 0 0 [31] 0).work.alph ≠ 3) :=
  ⟨⟨rfl, rfl, rfl⟩, rfl, rfl, ⟨rfl, rfl⟩, ⟨rfl, rfl⟩, rfl, by decide⟩

theorem witness_EscapePhaseTransitions :
    (Reads (decoding 2 1 0 [0] 0) 0 ∧ (decoding 2 1 0 [0] 0).work.phase = 1) ∧
      Reads (decoding 2 2 31 [31] 0) 31 ∧ (decoding 2 2 31 [31] 0).work.phase = 2 := ⟨⟨rfl, rfl⟩, rfl, rfl⟩

theorem witness_ReservedZcharAbortsDecoder :
    (decoding 2 0 0 [1, 2, 3] 0).engine = .decoder .strict ∧ Reads (decoding 2 0 0 [1, 2, 3] 0) 1 ∧
      Reads (decoding 2 0 0 [1, 2, 3] 1) 2 ∧ Reads (decoding 2 0 0 [1, 2, 3] 2) 3 ∧
      (decoding 2 0 0 [1, 2, 3] 2).work.phase = 0 := ⟨rfl, rfl, rfl, rfl, rfl⟩

theorem witness_DecoderEndOfStream :
    ((decoding 2 1 0 [5, 6] 2).work.idx = (decoding 2 1 0 [5, 6] 2).work.input.length ∧
      (decoding 2 1 0 [5, 6] 2).work.phase = 1) ∧
    ((decoding 0 0 0 [] 0).work.idx = (decoding 0 0 0 [] 0).work.input.length ∧
      (decoding 0 0 0 [] 0).work.phase = 0 ∧ (decoding 0 0 0 [] 0).work.alph = 0) ∧
    (decoding 1 0 0 [4] 1).engine = .decoder .strict ∧
      (decoding 1 0 0 [4] 1).work.idx = (decoding 1 0 0 [4] 1).work.input.length ∧
      (decoding 1 0 0 [4] 1).work.alph ≠ 0 ∧
      { decoding 1 0 0 [4] 1 with engine := .decoder .lenient }.engine = .decoder .lenient :=
  ⟨⟨rfl, rfl⟩, ⟨rfl, rfl, rfl⟩, rfl, rfl, by decide, rfl⟩

theorem witness_UnpackerAppendsThreeZchars :
    Reads (running (.unpacker true) [0xFF, 0xFF] 0) 0xFF ∧
      (running (.unpacker true) [0xFF, 0xFF] 0).work.input[0 + 1]? = some 0xFF ∧
      (running (.unpacker true) [0xFF, 0xFF] 0).work.termSeen = false := ⟨rfl, rfl, rfl⟩

theorem witness_TrailingWordAbortsUnpacker :
    let s := { running (.unpacker false) [0x80, 0, 0, 0] 2 with work.termSeen := true }
    s.engine = .unpacker false ∧ Reads s 0 ∧ s.work.input[2 + 1]? = some 0 ∧ s.work.termSeen = true :=
  ⟨rfl, rfl, rfl, rfl⟩

/-- An idle block that has taken a request with the given data. -/
def taken (version : Nat) (data : List Elem) : State :=
  { small with request := { cmd := 0, version := version, data := data } }

theorem witness_CommandsStartTheirStage :
    (taken 0 []).request.data.length % 2 = 0 ∧ (taken 0 [0x98, 0xA5]).request.data.length % 2 = 0 := by decide

theorem witness_OddLengthIsRefusedFirst : (taken 0 [0x98]).request.data.length % 2 = 1 := by decide

theorem witness_ReservedCommandResponds : small.engine = .idle ∧ small.work.out = [] := ⟨rfl, rfl⟩

/-- The default table; with `ALT = 1`, a table with NUL at index 52, and one without and no fatal strap. -/
theorem witness_ConfigureLoadsTable :
    ((taken 5 []).request.version = 5 ∧ defaultAlphabet.toList = (taken 5 []).params.defaultAlphabet.toList) ∧
      (defaultAlphabet.toList =
        (taken 5 (defaultAlphabet.toList.map Elem.ofZscii)).request.data.map (BitVec.ofNat 10) ∧
        defaultAlphabet[52] = 0x000) ∧
      (defaultAlphabet.set 52 0x78).toList =
        (taken 5 ((defaultAlphabet.set 52 0x78).toList.map Elem.ofZscii)).request.data.map (BitVec.ofNat 10) ∧
      small.params.a2Slot0Fatal = false :=
  ⟨⟨rfl, rfl⟩, ⟨by decide, by decide⟩, by decide, rfl⟩

theorem witness_ConfigureChecksInOrder :
    (taken 4 []).request.version ≠ 5 ∧
      ((taken 5 (List.replicate 77 0)).request.version = 5 ∧ (List.replicate 77 (0 : Zscii)).length ≠ 78 ∧
        List.replicate 77 (0 : Zscii) = (taken 5 (List.replicate 77 0)).request.data.map (BitVec.ofNat 10)) ∧
      let fatal : State :=
        { taken 5 (List.replicate 78 1) with params := { defaultParams with a2Slot0Fatal := true } }
      fatal.request.version = 5 ∧ (List.replicate 78 (1 : Zscii)).length = 78 ∧
        (List.replicate 78 (1 : Zscii))[52]? = some 1 ∧ (1 : Zscii) ≠ 0x000 ∧ fatal.params.a2Slot0Fatal = true ∧
        List.replicate 78 (1 : Zscii) = fatal.request.data.map (BitVec.ofNat 10) :=
  ⟨by decide, ⟨rfl, by decide, by decide⟩, rfl, by decide, by decide, by decide, rfl, by decide⟩

theorem witness_FailedConfigureKeepsConfiguration :
    ∃ t, exec (.configure false) (taken 4 []) = .next t ∧ t.response.status ≠ 0 := ⟨_, rfl, by decide⟩

/-- NUL, which a table may hold, and 0x3FF. -/
theorem witness_ShortcutIsOfLowestIndex : (0x000 : Zscii) ≠ 0x020 ∧ (0x3FF : Zscii) ≠ 0x020 := by decide

theorem witness_ShortcutsDecodeBack :
    Ready State.reset ∧ State.reset.config.sc = deriveShortcuts State.reset.config.alpha ∧
      scGet State.reset.config.sc 0x020 = some (.one 0) ∧ scGet State.reset.config.sc 0x0D = some (.two 5 7) :=
  ⟨⟨rfl, rfl⟩, reset_shortcuts, reset_shortcut_values.2.2.2.2.2.2, reset_shortcut_values.2.2.2.1⟩

/-- The one hypothesis of `EncZRunAgrees`, `DecZRunAgrees`, `PackRunAgrees`, `UnpackRunAgrees`, `EncodeZRunAgrees`,
`DecodeZRunAgrees`, `EveryRequestIsServed`, `UnpackOfPack` and `OperationsAreIdempotent`. -/
theorem witness_Ready : Ready small ∧ Ready State.reset := ⟨⟨rfl, rfl⟩, rfl, rfl⟩

/-- The hypotheses of `ZcharRoundTrip` and `PackedRoundTrip`. -/
theorem witness_RoundTrips :
    Ready State.reset ∧ State.reset.config.sc = deriveShortcuts State.reset.config.alpha :=
  ⟨⟨rfl, rfl⟩, reset_shortcuts⟩

/-- R221's example: `61` is one Z-char. -/
theorem witness_StandAloneStagesRejectPadding :
    encZ State.reset.config.sc ([0x61].map Elem.ofZscii) = .ok [6] ∧ [(6 : Zchar)].length % 3 ≠ 0 := by
  decide +kernel

theorem witness_EncodingIsConcatenative :
    encZ smallMap [0x61] = .ok [6] ∧ encZ smallMap [0x41, 0x20] = .ok [4, 6, 0] ∧
      encZ smallMap ([0x61] ++ [0x41, 0x20]) = .ok [6, 4, 6, 0] := by decide

theorem witness_ConcatenatedPacksAreRefused :
    Ready small ∧ [(6 : Zchar)] ≠ [] ∧ [(0 : Zchar), 0, 0] ≠ [] := ⟨⟨rfl, rfl⟩, by decide, by decide⟩

/-- A state in the middle of an escape that meets the invariant, and takes a step. -/
def midEscape : State :=
  { State.reset with
    engine := .decoder .strict
    work.alph := 2
    work.phase := 1
    work.input := [5, 6, 4, 0x1B]
    work.idx := 2 }

theorem midEscape_inv : Inv midEscape :=
  ⟨⟨reset_shortcuts, rfl, by decide⟩,
    ⟨by decide, fun _ => ⟨rfl, rfl, rfl⟩, fun _ => rfl, by decide⟩,
    by simp [midEscape, State.reset, State.resetWith], ⟨by decide, by decide⟩,
    ⟨by decide, by simp [midEscape, State.reset, State.resetWith, WorkingState.zero], fun _ => rfl⟩⟩

theorem witness_StepKeepsInvariant : Inv midEscape ∧ ∃ t, step midEscape = .next t := ⟨midEscape_inv, _, rfl⟩

theorem witness_NoStepStops : Inv midEscape := midEscape_inv

/-- A step that changes the configuration, and one that does not. -/
theorem witness_OnlyConfigureWritesConfiguration :
    (∃ t, step (asked 0x00 5 []) = .next t) ∧ ∃ t, step (asked 0x01 0 []) = .next t := ⟨⟨_, rfl⟩, _, rfl⟩

/-- A step inside a stage, and the step that ends one. -/
theorem witness_OperationsAreAtomicToHost :
    (midEscape.engine ≠ .idle ∧ ∃ t, step midEscape = .next t ∧ t.engine ≠ .idle) ∧
      (running .packer [] 0).engine ≠ .idle ∧ ∃ t, step (running .packer [] 0) = .next t ∧ t.engine = .idle :=
  ⟨⟨by decide, _, rfl, by decide⟩, by decide, _, rfl, rfl⟩

/-- Two ready states that differ in their working state only, and two that differ in the width of their port, with
a request that fits both. -/
theorem witness_ResponseDependsOnConfigurationOnly :
    let s := { small with work.alph := 2, work.phase := 1, work.termSeen := true }
    let wide := { small with params := { defaultParams with zsciiInW := 20, zsciiInW_wide := by decide } }
    (Ready small ∧ Ready s ∧ small.config = s.config ∧ small.params = s.params) ∧
      Ready wide ∧ small.config = wide.config ∧ small.params.a2Slot0Fatal = wide.params.a2Slot0Fatal ∧
      small.params.defaultAlphabet = wide.params.defaultAlphabet ∧
      ∀ e ∈ [0x61, 0xFFFF], e < 2 ^ small.params.zsciiInW ∧ e < 2 ^ wide.params.zsciiInW :=
  ⟨⟨⟨rfl, rfl⟩, ⟨rfl, rfl⟩, rfl, rfl⟩, ⟨rfl, rfl⟩, rfl, rfl, rfl, by decide⟩

/-- A running block and an idle block with a request in line. -/
theorem witness_WaitingRequestsAreKeptInOrder :
    (¬ Ready midEscape ∧ midEscape.engine ≠ .idle ∧ ∃ t, step midEscape = .next t) ∧
      (¬ Ready (asked 0x01 0 []) ∧ (asked 0x01 0 []).engine = .idle ∧ ∃ t, step (asked 0x01 0 []) = .next t) :=
  ⟨⟨fun h => absurd h.1 (by decide), by decide, _, rfl⟩, fun h => absurd h.2 (by decide), rfl, _, rfl⟩

theorem witness_DefaultConfigureIsReset :
    Ready small ∧ small.config.cfgVersion = 5 := ⟨⟨rfl, rfl⟩, rfl⟩

end Sys2Proof.Tests
end

/-! The unpack-key table (30_encoding.md R75): each row tests `TERM_SEEN` and the word's bit 15. -/

namespace Sys2Proof

open Machine

/-- No two rows overlap and no key is left out: `TERM_SEEN` set, or clear with bit 15 set, or both clear. -/
theorem unpackRows_exactly_one (k : BitVec 17) : (unpackRows.filter fun r => r.matches k).length = 1 := by
  obtain ⟨hAfter, hMid, hFinal⟩ := mask_unpack k
  simp only [unpackRows, List.filter, Row.matches, hAfter, hMid, hFinal]
  cases k.getLsbD 16
  · cases k.getLsbD 15 <;> rfl
  · rfl

/-- What the unpack table selects for any key. -/
theorem decodeUnpackKey_eq (k : BitVec 17) :
    decodeUnpackKey k =
      if unpackKeyTermSeen k then .pwAfterTerm (unpackKeyWord k)
      else if wordMarker (unpackKeyWord k) then
        .pwFinal (wordZ0 (unpackKeyWord k)) (wordZ1 (unpackKeyWord k)) (wordZ2 (unpackKeyWord k))
      else .pwMid (wordZ0 (unpackKeyWord k)) (wordZ1 (unpackKeyWord k)) (wordZ2 (unpackKeyWord k)) := by
  obtain ⟨hAfter, hMid, hFinal⟩ := mask_unpack k
  have hMarker : wordMarker (unpackKeyWord k) = k.getLsbD 15 := by
    simp [wordMarker, unpackKeyWord, -BitVec.getLsbD_eq_getElem]
  simp only [decodeUnpackKey, firstRow, unpackRows, List.find?, Row.matches, hAfter, hMid, hFinal, hMarker,
    unpackKeyTermSeen]
  cases k.getLsbD 16
  · cases k.getLsbD 15 <;> rfl
  · rfl

/-- What the unpack table selects for a key put together from `TERM_SEEN` and a word. -/
theorem decodeUnpackKey_unpackKey (termSeen : Bool) (n : PackedWord) :
    decodeUnpackKey (unpackKey termSeen n) =
      if termSeen then .pwAfterTerm n
      else if wordMarker n then .pwFinal (wordZ0 n) (wordZ1 n) (wordZ2 n)
      else .pwMid (wordZ0 n) (wordZ1 n) (wordZ2 n) := by
  rw [decodeUnpackKey_eq, unpackKeyTermSeen_unpackKey, unpackKeyWord_unpackKey]

/-- Settles O5: the rows' tests exclude each other and leave no key out, so the fields of the key select the row. -/
theorem unpackRowsPartitionAllKeys : Obligations.UnpackRowsPartitionAllKeys :=
  ⟨rfl, unpackRows_exactly_one, decodeUnpackKey_unpackKey⟩

end Sys2Proof

/-! `CONFIGURE` and the shortcut map it derives (40_configure.md). -/

namespace Sys2Proof

open Machine Claims

/-! ### The checks and the configuration of a table -/

theorem exec_configure (alt : Bool) (s : State) : exec (.configure alt) s = execConfigure alt s := rfl

theorem giveResponse_responded (r : ResponseState) (out : List Elem) (s : State) :
    Responded s (giveResponse r out s) r out := rfl

theorem raise_responded (kind : ErrorKind) (value : BitVec 16) (alph : BitVec 2) (pos : Nat) (s : State) :
    Responded s (raise kind value alph pos s) (failed kind value alph pos) [] := rfl

theorem escapeSlotWarning_eq_decide (table : AlphabetTable) :
    escapeSlotWarning table = decide (table[52] ≠ 0x000) := by
  simp [escapeSlotWarning, escSlot, bne, Bool.beq_eq_decide_eq]

theorem ofTable_eq (table : AlphabetTable) (version : Nat) :
    Configuration.ofTable table version =
      { alpha := table, sc := deriveShortcuts table, cfgVersion := version
        warnA2s0 := decide (table[52] ≠ 0x000) } := by
  rw [Configuration.ofTable, escapeSlotWarning_eq_decide]

theorem exists_table_of_length {entries : List Zscii} (h : entries.length = 78) :
    ∃ table : AlphabetTable, table.toList = entries :=
  ⟨⟨entries.toArray, by simpa using h⟩, rfl⟩

theorem loadTable_refuses {table : AlphabetTable} {s : State} (hwarn : table[52] ≠ 0x000)
    (hfatal : s.params.a2Slot0Fatal = true) :
    loadTable table s = raise .escapeSlotNotNul (table[52].setWidth 16) 0 0 s := by
  unfold loadTable
  rw [if_pos ⟨by rw [escapeSlotWarning_eq_decide, decide_eq_true hwarn], hfatal⟩]
  rfl

/-- Everything the load of an alphabet can do: one of its two checks fails, or it replaces the configuration. -/
theorem loadAlphabet_cases (entries : List Zscii) (s : State) :
    (entries.length ≠ 78 ∧
      loadAlphabet entries s = raise .invalidAlphabetTable (BitVec.ofNat 16 entries.length) 0 0 s) ∨
    ∃ table : AlphabetTable, table.toList = entries ∧
      ((table[52] ≠ 0x000 ∧ s.params.a2Slot0Fatal = true ∧
          loadAlphabet entries s = raise .escapeSlotNotNul (table[52].setWidth 16) 0 0 s) ∨
        ((table[52] = 0x000 ∨ s.params.a2Slot0Fatal = false) ∧
          loadAlphabet entries s =
            giveResponse ResponseState.success []
              { s with config := Configuration.ofTable table s.config.cfgVersion })) := by
  by_cases hlen : entries.length = 78
  · obtain ⟨table, rfl⟩ := exists_table_of_length hlen
    refine .inr ⟨table, rfl, ?_⟩
    rw [loadAlphabet_table]
    by_cases hcheck : table[52] = 0x000 ∨ s.params.a2Slot0Fatal = false
    · exact .inr ⟨hcheck, loadTable_accepts (by simpa [escapeSlotWarning_eq_decide] using hcheck)⟩
    · obtain ⟨hwarn, hfatal⟩ := not_or.mp hcheck
      have hfatal : s.params.a2Slot0Fatal = true := by simpa using hfatal
      exact .inl ⟨hwarn, hfatal, loadTable_refuses hwarn hfatal⟩
  · exact .inl ⟨hlen, loadAlphabet_length s hlen⟩

/-- Settles O28: the table that the alphabet lists passes both checks; with `ALT = 0` it is `DEFAULT_ALPHABET`, which
has NUL at index 52. -/
theorem configureLoadsTable : Obligations.ConfigureLoadsTable := by
  intro s alt table hver hdata hcheck
  have hcheck : escapeSlotWarning table = false ∨ s.params.a2Slot0Fatal = false := by
    rcases hcheck with rfl | hnul | hfatal
    · obtain rfl : table = s.params.defaultAlphabet := Vector.toList_inj.mp (by simpa using hdata)
      exact .inl (Params.escapeSlotWarning_default s.params)
    · exact .inl (by simp [escapeSlotWarning_eq_decide, hnul])
    · exact .inr hfatal
  refine ⟨_, ?_, giveResponse_responded _ _ _⟩
  rw [exec_configure, execConfigure_accepts alt hver, ← hdata, loadAlphabet_table, loadTable_accepts hcheck,
    ofTable_eq]

/-- Settles O29: each check is reached when the ones before it pass, and raises its own error. -/
theorem configureChecksInOrder : Obligations.ConfigureChecksInOrder := by
  intro s alt entries hentries
  have haccepts (hver : s.request.version = 5) : exec (.configure alt) s = .next (loadAlphabet entries s) := by
    rw [hentries]
    exact execConfigure_accepts alt hver
  refine ⟨fun hver => ?version, fun hver hlen => ?length, fun c hver hlen hc hne hfatal => ?escapeSlot⟩
  case version => exact ⟨_, execConfigure_refuses alt hver, raise_responded _ _ _ _ _⟩
  case length => exact ⟨_, (haccepts hver).trans (by rw [loadAlphabet_length s hlen]), raise_responded _ _ _ _ _⟩
  case escapeSlot =>
    obtain ⟨table, rfl⟩ := exists_table_of_length hlen
    obtain ⟨_, rfl⟩ := alphaEntry_eq_some_iff.mp (show alphaEntry table 52 = some c by simpa [alphaEntry] using hc)
    refine ⟨_, (haccepts hver).trans ?_, raise_responded _ _ _ _ _⟩
    rw [loadAlphabet_table, loadTable_refuses hne hfatal]

/-- Settles O30: every failure is an error taken in the state as it was, and the one way to succeed has `STATUS` 0. -/
theorem failedConfigureKeepsConfiguration : Obligations.FailedConfigureKeepsConfiguration := by
  intro s t alt hexec hstatus
  rw [exec_configure] at hexec
  by_cases hver : s.request.version = 5
  · rw [execConfigure_accepts alt hver] at hexec
    obtain rfl := Host.Outcome.next.inj hexec
    rcases loadAlphabet_cases _ s with ⟨-, hlength⟩ | ⟨table, -, ⟨-, -, hescape⟩ | ⟨-, hsuccess⟩⟩
    · rw [hlength]; rfl
    · rw [hescape]; rfl
    · rw [hsuccess] at hstatus
      exact absurd rfl hstatus
  · rw [execConfigure_refuses alt hver] at hexec
    obtain rfl := Host.Outcome.next.inj hexec
    rfl

/-! ### The shortcut map -/

/-- No index of the table but the escape marker stands for `[5, 6]` (R111). -/
theorem eq_escSlot_of_shortcut {i : Nat} (hi : i < 78)
    (h : Shortcut.two 5 6 = shortcutOfSlot (i / alphaSlots) (i % alphaSlots)) : i = escSlot := by
  revert i
  decide

theorem scVisit_set_escSlot (table : AlphabetTable) (v : Zscii) : scVisit (table.set 52 v) = scVisit table := by
  funext m idx
  by_cases hesc : idx = escSlot
  · simp [scVisit, hesc]
  · have hentry : alphaEntry (table.set 52 v) idx = alphaEntry table idx :=
      Vector.getElem?_set_ne _ (Ne.symm hesc)
    simp only [scVisit, hentry]

/-- Settles O33: the derivation's loop passes over index 52, and no other index has the shortcut `[5, 6]`. -/
theorem escapeMarkerYieldsNoShortcut : Obligations.EscapeMarkerYieldsNoShortcut := by
  intro table v c
  constructor
  · unfold deriveShortcuts
    rw [scVisit_set_escSlot]
  · intro hc
    rw [scGet_deriveShortcuts] at hc
    split at hc
    · cases hc
    · obtain ⟨i, hi, ⟨hne, -, -⟩, hsh⟩ := hc
      exact hne (eq_escSlot_of_shortcut hi hsh)

/-- Settles O32: the fixed shortcut of space does not depend on what the table gives it. -/
theorem spaceShortcutIsFixed : Obligations.SpaceShortcutIsFixed := by
  intro table
  exact (scGet_deriveShortcuts table zsciiSpace (.one 0)).mpr (by rw [if_pos rfl])

end Sys2Proof

/-! The encoder (41_encoder.md): the class of an input element, what its instruction appends, and where in the alphabet
table a shortcut comes from. -/

namespace Sys2Proof

open Machine Claims

/-! ### The class of an input element (30_encoding.md R78, R79) -/

theorem firstRow_cons {w : Nat} (r : Row w) (rows : List (Row w)) (k : BitVec w) :
    firstRow (r :: rows) k = if r.matches k then some (r.instr k) else firstRow rows k := by
  cases h : r.matches k <;> simp [firstRow, h]

/-- Where all rows select one instruction, it matters only whether some row matches. -/
theorem firstRow_of_same_instr {w : Nat} {rows : List (Row w)} {k : BitVec w} {i : Instr}
    (h : ∀ r ∈ rows, r.instr k = i) : firstRow rows k = if rows.any (·.matches k) then some i else none := by
  induction rows with
  | nil => rfl
  | cons r rows ih =>
    obtain ⟨hr, hrows⟩ := List.forall_mem_cons.mp h
    rw [firstRow_cons, ih hrows, hr]
    cases hm : r.matches k <;> simp [hm]

/-- The six `ENC_OOR` rows as masks and values of the field `c[15:10]`. -/
def outOfRangeFields : List (BitVec 6 × BitVec 6) :=
  [(0b100000, 0b100000), (0b110000, 0b010000), (0b111000, 0b001000), (0b111100, 0b000100), (0b111110, 0b000010),
   (0b111111, 0b000001)]

theorem outOfRangeRows_any_matches (c : BitVec 16) :
    encoderRows.tail.any (·.matches c) =
      outOfRangeFields.any fun p => c.extractLsb' 10 6 &&& p.1 == p.2 := by
  simp only [outOfRangeFields, List.any, ← mask_top_six]
  rfl

/-- The six patterns cover every value of `c[15:10]` but 0. -/
theorem outOfRangeFields_any : ∀ field : BitVec 6,
    (outOfRangeFields.any fun p => field &&& p.1 == p.2) = true ↔ ¬ field = 0#6 := by decide

/-- The fixed patterns of the encoder select by value. -/
theorem firstRow_encoderRows (c : BitVec 16) :
    firstRow encoderRows c =
      if c = 0x0020 then some .encSpace else if c < 1024 then none else some (.encOor c.toNat) := by
  have hspace : (c &&& 0xFFFF == (0x0020 : BitVec 16)) = (c == 0x0020) := by
    rw [show c &&& 0xFFFF = c from BitVec.and_allOnes]
  have hsame : ∀ r ∈ encoderRows.tail, r.instr c = .encOor c.toNat := by simp [encoderRows]
  calc
    firstRow encoderRows c
    _ = if c &&& 0xFFFF == (0x0020 : BitVec 16) then some .encSpace else firstRow encoderRows.tail c :=
      firstRow_cons _ _ c
    _ = if c = 0x0020 then some .encSpace else if c < 1024 then none else some (.encOor c.toNat) := by
      simp only [hspace, firstRow_of_same_instr hsame, outOfRangeRows_any_matches, outOfRangeFields_any, lt_1024_iff,
        ite_not, beq_iff_eq]

/-- The same for an element as a number. -/
theorem firstRow_encoderRows_ofNat {c : Nat} (h : c < 2 ^ 16) :
    firstRow encoderRows (BitVec.ofNat 16 c) =
      if c = 0x0020 then some .encSpace else if c < 1024 then none else some (.encOor c) := by
  have hval : (BitVec.ofNat 16 c).toNat = c := Nat.mod_eq_of_lt h
  have hspace : BitVec.ofNat 16 c = 0x0020 ↔ c = 0x0020 := by
    rw [← BitVec.toNat_inj, hval]
    rfl
  have hrange : BitVec.ofNat 16 c < 1024 ↔ c < 1024 := by
    rw [BitVec.lt_def, hval]
    rfl
  simp only [firstRow_encoderRows, hspace, hrange, hval]

theorem decodeZscii_space (sc : ShortcutMap) : decodeZscii sc 0x0020 = .encSpace := by
  simp [decodeZscii, firstRow_encoderRows_ofNat]

theorem decodeZscii_outOfRange (sc : ShortcutMap) {c : Nat} (h : 1024 ≤ c) : decodeZscii sc c = .encOor c := by
  by_cases hwide : 2 ^ 16 ≤ c
  · rw [decodeZscii, if_pos hwide]
  · simp [decodeZscii, firstRow_encoderRows_ofNat (Nat.lt_of_not_le hwide), show c ≠ 0x0020 by omega,
      Nat.not_lt.mpr h]

section Codepoint
variable {sc : ShortcutMap} {c : Nat} (h : c < 1024) (hne : c ≠ 0x0020)
include h hne

theorem firstRow_encoderRows_codepoint : firstRow encoderRows (BitVec.ofNat 16 c) = none := by
  rw [firstRow_encoderRows_ofNat (by omega), if_neg hne, if_pos h]

theorem decodeZscii_one {z : Zchar} (hsc : scGet sc (zsciiOfInput c) = some (.one z)) :
    decodeZscii sc c = .encSc1 (zsciiOfInput c) z := by
  simp [decodeZscii, firstRow_encoderRows_codepoint h hne, hsc, show c < 65536 by omega]

theorem decodeZscii_two {shift z : Zchar} (hsc : scGet sc (zsciiOfInput c) = some (.two shift z)) :
    decodeZscii sc c = .encSc2 (zsciiOfInput c) shift z := by
  simp [decodeZscii, firstRow_encoderRows_codepoint h hne, hsc, show c < 65536 by omega]

theorem decodeZscii_none (hsc : scGet sc (zsciiOfInput c) = none) :
    decodeZscii sc c = .encEsc (zsciiOfInput c) := by
  simp [decodeZscii, firstRow_encoderRows_codepoint h hne, hsc, show c < 65536 by omega]

end Codepoint

/-! ### What the instructions append (41_encoder.md R132 to R137) -/

theorem exec_encSpace_emitted (s : State) : ∃ t, exec .encSpace s = .next t ∧ Emitted s t 1 [0] := ⟨_, rfl, rfl⟩

theorem exec_encSc1_emitted (c : Zscii) (z : Zchar) (s : State) :
    ∃ t, exec (.encSc1 c z) s = .next t ∧ Emitted s t 1 [z.toNat] := ⟨_, rfl, rfl⟩

theorem exec_encSc2_emitted (c : Zscii) (shift z : Zchar) (s : State) :
    ∃ t, exec (.encSc2 c shift z) s = .next t ∧ Emitted s t 1 [shift.toNat, z.toNat] :=
  ⟨_, rfl, by simp [Emitted, advance, emit]⟩

theorem exec_encEsc_emitted (c : Zscii) (s : State) :
    ∃ t, exec (.encEsc c) s = .next t ∧ Emitted s t 1 [5, 6, (escapeHigh c).toNat, (escapeLow c).toNat] :=
  ⟨_, rfl, by simp [Emitted, advance, emit]⟩

theorem exec_encOor_responded (c : Nat) (s : State) :
    ∃ t, exec (.encOor c) s = .next t ∧
      Responded s t (failed .zsciiCodepointOutOfRange (errValueOfInput c) 0 s.work.idx) [] :=
  ⟨_, rfl, raise_responded _ _ _ _ _⟩

theorem toNat_escapeHigh_zsciiOfInput {c : Nat} (h : c < 1024) : (escapeHigh (zsciiOfInput c)).toNat = c / 32 := by
  simp only [escapeHigh, zsciiOfInput, BitVec.extractLsb'_toNat, BitVec.toNat_ofNat, Nat.shiftRight_eq_div_pow]
  omega

theorem toNat_escapeLow_zsciiOfInput (c : Nat) : (escapeLow (zsciiOfInput c)).toNat = c % 32 := by
  simp only [escapeLow, zsciiOfInput, BitVec.extractLsb'_toNat, BitVec.toNat_ofNat, Nat.shiftRight_eq_div_pow]
  omega

/-! ### The step of a running encoder -/

/-- An element that fits the encoder's port runs the instruction of its class. -/
theorem step_encoder_of_fits {s : State} {b : Bool} {c : Nat} (hen : s.engine = .encoder b) (hc : Reads s c)
    (hfits : c < 2 ^ s.params.zsciiInW) : step s = exec (decodeZscii s.config.sc c) s := by
  rw [step_encoder hen hc, zsciiPort_fits hfits]

/-- A codepoint fits every port (00_scope.md R8; 92_eei_decisions.md D4). -/
theorem Params.codepoint_fits_port (p : Params) {c : Nat} (h : c < 1024) : c < 2 ^ p.zsciiInW :=
  calc
    c < 2 ^ 10 := h
    _ ≤ 2 ^ p.zsciiInW := Nat.pow_le_pow_right (by decide) (Nat.le_of_succ_le p.zsciiInW_wide)

theorem step_encoder_codepoint {s : State} {b : Bool} {c : Nat} (hen : s.engine = .encoder b) (hc : Reads s c)
    (h : c < 1024) : step s = exec (decodeZscii s.config.sc c) s :=
  step_encoder_of_fits hen hc (s.params.codepoint_fits_port h)

/-! ### Where a derived shortcut comes from (40_configure.md R110, R112; 30_encoding.md R83) -/

/-- Only a slot of A0 has a one-Z-char shortcut. -/
theorem one_eq_shortcutOfSlot {k j : Nat} {z : Zchar} (hj : j < 26) (h : .one z = shortcutOfSlot k j) :
    k = 0 ∧ z.toNat = 6 + j := by
  unfold shortcutOfSlot at h
  split at h
  case isTrue hk =>
    obtain rfl := Shortcut.one.inj h
    exact ⟨hk, Nat.mod_eq_of_lt (by omega)⟩
  case isFalse => cases h

/-- A two-Z-char shortcut names its alphabet and its slot. -/
theorem two_eq_shortcutOfSlot {k j : Nat} {shift z : Zchar} (hj : j < 26) (h : .two shift z = shortcutOfSlot k j) :
    k ≠ 0 ∧ shift = BitVec.ofNat 5 (3 + k) ∧ z.toNat = 6 + j := by
  unfold shortcutOfSlot at h
  split at h
  case isTrue => cases h
  case isFalse hk =>
    obtain ⟨rfl, rfl⟩ := Shortcut.two.inj h
    exact ⟨hk, rfl, Nat.mod_eq_of_lt (by omega)⟩

/-- A codepoint other than space with a derived shortcut has it from slot `j` of alphabet `k`, its first place in the
table but for the escape marker. -/
theorem exists_slot_of_scGet {table : AlphabetTable} {c : Zscii} {sh : Shortcut}
    (h : scGet (deriveShortcuts table) c = some sh) (hne : c ≠ zsciiSpace) :
    ∃ k < 3, ∃ j < 26, FirstIndex table c (26 * k + j) ∧ sh = shortcutOfSlot k j := by
  rw [scGet_deriveShortcuts, if_neg hne] at h
  obtain ⟨i, hi, hfirst, hsh⟩ := h
  refine ⟨i / 26, by omega, i % 26, by omega, ?_, hsh⟩
  rwa [Nat.div_add_mod]

theorem zsciiOfInput_ne_space {c : Nat} (h : c < 1024) (hne : c ≠ 0x0020) : zsciiOfInput c ≠ zsciiSpace := by
  intro heq
  have hval := congrArg BitVec.toNat heq
  rw [zsciiOfInput, BitVec.toNat_ofNat, Nat.mod_eq_of_lt h] at hval
  exact hne hval

/-- The input element of a codepoint whose derived shortcut is not that of space is not space (R112). -/
theorem ne_space_of_scGet {table : AlphabetTable} {c : Nat} {result : Option Shortcut}
    (h : scGet (deriveShortcuts table) (zsciiOfInput c) = result) (hne : result ≠ some (.one 0)) : c ≠ 0x0020 := by
  rintro rfl
  exact hne (h.symm.trans (spaceShortcutIsFixed table))

/-- A codepoint that no index but 52 holds has no derived shortcut (40_configure.md R111). -/
theorem scGet_eq_none_of_only_escSlot {table : AlphabetTable} {c : Zscii} (hne : c ≠ zsciiSpace)
    (honly : ∀ i : Fin 78, table[i] = c → i = 52) : scGet (deriveShortcuts table) c = none := by
  cases hsc : scGet (deriveShortcuts table) c with
  | none => rfl
  | some sh =>
    obtain ⟨k, -, j, -, ⟨hesc, hat, -⟩, -⟩ := exists_slot_of_scGet hsc hne
    obtain ⟨hi, hentry⟩ := alphaEntry_eq_some_iff.mp hat
    exact absurd (congrArg Fin.val (honly ⟨_, hi⟩ hentry)) hesc

/-! ### The obligations -/

/-- Settles O13: only a slot of A0 has a one-Z-char shortcut, and the derivation keeps the first. -/
theorem oneZcharShortcutStep : Obligations.OneZcharShortcutStep := by
  intro s b c z hen hsc hc hlt hne hz
  refine ⟨?step, ?slot⟩
  case step =>
    rw [step_encoder_codepoint hen hc hlt, decodeZscii_one hlt hne hz]
    exact exec_encSc1_emitted _ z s
  case slot =>
    obtain ⟨k, -, j, hj, ⟨-, hat, hfirst⟩, hsh⟩ :=
      exists_slot_of_scGet (hsc ▸ hz) (zsciiOfInput_ne_space hlt hne)
    obtain ⟨rfl, hval⟩ := one_eq_shortcutOfSlot hj hsh
    rw [Nat.mul_zero, Nat.zero_add] at hat hfirst
    obtain ⟨_, hentry⟩ := alphaEntry_eq_some_iff.mp hat
    refine ⟨⟨j, hj⟩, hval, hentry, fun i hij heq => ?_⟩
    have hesc : i.val ≠ escSlot := Nat.ne_of_lt (Nat.lt_trans i.isLt (by decide))
    exact hfirst i hij hesc (alphaEntry_eq_some_iff.mpr ⟨_, heq⟩)

/-- Settles O14: the shift names the alphabet of the slot, and slot 0 of A2 is the escape marker, which has no
shortcut. -/
theorem twoZcharShortcutStep : Obligations.TwoZcharShortcutStep := by
  intro s b c shift z hen hsc hc hlt hz
  have hderived : scGet (deriveShortcuts s.config.alpha) (zsciiOfInput c) = some (.two shift z) := hsc ▸ hz
  have hne : c ≠ 0x0020 := ne_space_of_scGet hderived (by simp)
  refine ⟨?step, ?slot⟩
  case step =>
    rw [step_encoder_codepoint hen hc hlt, decodeZscii_two hlt hne hz]
    exact exec_encSc2_emitted _ shift z s
  case slot =>
    obtain ⟨k, hk, j, hj, ⟨hesc, hat, -⟩, hsh⟩ := exists_slot_of_scGet hderived (zsciiOfInput_ne_space hlt hne)
    obtain ⟨hk0, hshift, hval⟩ := two_eq_shortcutOfSlot hj hsh
    refine ⟨⟨j, hj⟩, hval, ?_⟩
    obtain rfl | rfl : k = 1 ∨ k = 2 := by omega
    · exact .inl ⟨hshift, hat⟩
    · exact .inr ⟨hshift, Nat.pos_of_ne_zero fun hj0 => hesc (congrArg (26 * 2 + ·) hj0), hat⟩

/-- Settles O15: space has a shortcut under a derived map, so a codepoint without one is escaped; NUL stands at index 52
of the default table only. -/
theorem escapeStep : Obligations.EscapeStep := by
  refine ⟨?step, ?nul, fun table c hne honly => scGet_eq_none_of_only_escSlot hne honly⟩
  case step =>
    intro s b c hen hsc hc hlt hnone
    have hderived : scGet (deriveShortcuts s.config.alpha) (zsciiOfInput c) = none := hsc ▸ hnone
    have hne : c ≠ 0x0020 := ne_space_of_scGet hderived (by simp)
    rw [step_encoder_codepoint hen hc hlt, decodeZscii_none hlt hne hnone, ← toNat_escapeHigh_zsciiOfInput hlt,
      ← toNat_escapeLow_zsciiOfInput c]
    exact exec_encEsc_emitted _ s
  case nul => exact scGet_eq_none_of_only_escSlot (by decide) (by decide)

/-- Settles O12: the fixed pattern of space comes before the shortcut map. -/
theorem spaceAppendsZcharZero : Obligations.SpaceAppendsZcharZero := by
  intro s b hen hc
  rw [step_encoder_codepoint hen hc (by decide), decodeZscii_space]
  exact exec_encSpace_emitted s

/-- Settles O16: a port that can present the element gives it as it stands, and its class is `ENC_OOR`. -/
theorem outOfRangeAbortsEncoder : Obligations.OutOfRangeAbortsEncoder := by
  intro s c
  refine ⟨errValueOfInput c, errValueOfInput_toNat, exec_encOor_responded c s, fun b hen hc hrange hfits => ?_⟩
  rw [step_encoder_of_fits hen hc hfits, decodeZscii_outOfRange _ hrange]
  exact exec_encOor_responded c s

end Sys2Proof

/-! The decoder (42_decoder.md): what a Z-char selects in each phase, what its instruction does, and the end of the
stage's input. -/

namespace Sys2Proof

open Machine Claims

/-! ### The instruction of a Z-char in phase NORMAL (30_encoding.md R72) -/

/-- With `ALPH = 3`, which no rule forms, the key table lacks a row for Z-char 6 only. -/
theorem decodeKey_normal_of_reachable {alph : BitVec 2} {z : Zchar} (h : ¬(alph = 3 ∧ z = 6)) :
    decodeKey (zcharKey 0 alph z) = .ok (normalInstr alph z) := by
  by_cases ha : alph = 3
  · subst ha
    revert z
    decide
  · exact decodeKey_normal alph z ha

theorem normalInstr_space (alph : BitVec 2) : normalInstr alph 0 = .zcSpace alph := rfl

theorem normalInstr_reserved (alph : BitVec 2) {z : Zchar} (h : z = 1 ∨ z = 2 ∨ z = 3) :
    normalInstr alph z = .zcRsv alph z := by
  rcases h with rfl | rfl | rfl <;> rfl

theorem normalInstr_shiftA1 (alph : BitVec 2) : normalInstr alph 4 = .zcShiftA1 alph := rfl

theorem normalInstr_shiftA2 (alph : BitVec 2) : normalInstr alph 5 = .zcShiftA2 alph := rfl

theorem normalInstr_escape : normalInstr 2 6 = .zcEscape := rfl

theorem normalInstr_literal {alph : BitVec 2} {z : Zchar} (h : 6 ≤ z) (hesc : ¬(z = 6 ∧ alph = 2)) :
    normalInstr alph z = .zcLit alph z := by
  have hne (c : Zchar) (hc : c < 6) : z ≠ c := fun heq => absurd hc (BitVec.not_lt.mpr (heq ▸ h))
  simpa [normalInstr, hne] using hesc

/-! ### What the instructions do (42_decoder.md R152 to R161) -/

theorem exec_zcEscHi_stepped (alph : BitVec 2) (z : Zchar) (s : State) :
    ∃ t, exec (.zcEscHi alph z) s = .next t ∧
      DecoderStepped { s with work.escHiLatch := z } t [] s.work.alph 2 :=
  ⟨_, rfl, by simp [DecoderStepped, advance, setPhase, latchHigh, phaseEscLo]⟩

theorem exec_zcEscLo_stepped (alph : BitVec 2) (z : Zchar) (s : State) :
    ∃ t, exec (.zcEscLo alph z) s = .next t ∧
      DecoderStepped s t [(escapeCodepoint s.work.escHiLatch z).toNat] 0 0 := ⟨_, rfl, rfl⟩

theorem exec_zcSpace_stepped (alph : BitVec 2) (s : State) :
    ∃ t, exec (.zcSpace alph) s = .next t ∧ DecoderStepped s t [0x020] 0 s.work.phase := ⟨_, rfl, rfl⟩

theorem exec_zcRsv_responded (alph : BitVec 2) (z : Zchar) (s : State) :
    ∃ t, exec (.zcRsv alph z) s = .next t ∧
      Responded s t (failed .unknownZchar (z.setWidth 16) alph s.work.idx) [] :=
  ⟨_, rfl, raise_responded _ _ _ _ _⟩

theorem exec_zcShiftA1_stepped (alph : BitVec 2) (s : State) :
    ∃ t, exec (.zcShiftA1 alph) s = .next t ∧ DecoderStepped s t [] 1 s.work.phase :=
  ⟨_, rfl, by simp [DecoderStepped, advance, setAlph]⟩

theorem exec_zcShiftA2_stepped (alph : BitVec 2) (s : State) :
    ∃ t, exec (.zcShiftA2 alph) s = .next t ∧ DecoderStepped s t [] 2 s.work.phase :=
  ⟨_, rfl, by simp [DecoderStepped, advance, setAlph]⟩

theorem exec_zcEscape_stepped (s : State) :
    ∃ t, exec .zcEscape s = .next t ∧ DecoderStepped s t [] s.work.alph 1 :=
  ⟨_, rfl, by simp [DecoderStepped, advance, setPhase, phaseEscHi]⟩

/-- A literal of a real alphabet has its entry inside the table. -/
theorem exec_zcLit_stepped {alph : BitVec 2} (h : alph ≠ 3) (z : Zchar) (s : State) :
    ∃ (hi : literalIndex alph z < 78) (t : State), exec (.zcLit alph z) s = .next t ∧
      DecoderStepped s t [(s.config.alpha[literalIndex alph z]).toNat] 0 s.work.phase := by
  have hi := literalIndex_lt alph z h
  have hentry : alphaEntry s.config.alpha (literalIndex alph z) = some s.config.alpha[literalIndex alph z] :=
    alphaEntry_eq_some_iff.mpr ⟨hi, rfl⟩
  refine ⟨hi, _, ?_, rfl⟩
  show execZcLit alph z s = _
  rw [execZcLit, hentry]
  rfl

/-! ### The step of a running decoder -/

theorem respondOk_responded (s : State) : Responded s (respondOk s) ResponseState.success s.work.out := rfl

section Step
variable {s : State} {m : EndMode} {e : Elem}

theorem step_decoder_normal {z : Zchar} (hen : s.engine = .decoder m) (he : Reads s e) (hz : z = BitVec.ofNat 5 e)
    (hp : s.work.phase = 0) (h : ¬(s.work.alph = 3 ∧ z = 6)) : step s = exec (normalInstr s.work.alph z) s := by
  subst hz
  exact step_decoder hen he (hp ▸ decodeKey_normal_of_reachable h)

theorem step_decoder_escHi (hen : s.engine = .decoder m) (he : Reads s e) (hp : s.work.phase = 1) :
    step s = exec (.zcEscHi s.work.alph (BitVec.ofNat 5 e)) s :=
  step_decoder hen he (hp ▸ decodeKey_escHi _ _)

theorem step_decoder_escLo (hen : s.engine = .decoder m) (he : Reads s e) (hp : s.work.phase = 2) :
    step s = exec (.zcEscLo s.work.alph (BitVec.ofNat 5 e)) s :=
  step_decoder hen he (hp ▸ decodeKey_escLo _ _)

/-- At the end of its input the decoder is finished in its mode. -/
theorem step_decoder_finish (hen : s.engine = .decoder m) (hend : s.work.idx = s.work.input.length) :
    step s = .next (finishDecoder m s) := by
  rw [step_finish (by simp [hen]) hend.ge, finishStage, hen]

end Step

/-! ### The obligations -/

/-- Settles O19: the Z-char and the pending alphabet select the instruction, and each does what its rule says. -/
theorem normalPhaseTransitions : Obligations.NormalPhaseTransitions := by
  intro s m e z hen he hz hp
  have hstep := step_decoder_normal hen he hz hp
  refine ⟨?space, ?shiftA1, ?shiftA2, ?escape, ?literal⟩
  case space =>
    rintro rfl
    rw [hstep (by simp), normalInstr_space]
    exact hp ▸ exec_zcSpace_stepped s.work.alph s
  case shiftA1 =>
    rintro rfl
    rw [hstep (by simp), normalInstr_shiftA1]
    exact hp ▸ exec_zcShiftA1_stepped s.work.alph s
  case shiftA2 =>
    rintro rfl
    rw [hstep (by simp), normalInstr_shiftA2]
    exact hp ▸ exec_zcShiftA2_stepped s.work.alph s
  case escape =>
    rintro ⟨rfl, ha⟩
    rw [hstep (by simp [ha]), ha, normalInstr_escape]
    exact ha ▸ exec_zcEscape_stepped s
  case literal =>
    rintro ⟨h6, hesc, ha⟩
    rw [hstep (fun h => ha h.1), normalInstr_literal h6 hesc]
    exact hp ▸ exec_zcLit_stepped ha z s

/-- Settles O20: in an escape phase the phase alone selects the instruction. -/
theorem escapePhaseTransitions : Obligations.EscapePhaseTransitions := by
  intro s m e hen he
  refine ⟨fun hp => ?high, fun hp => ?low⟩
  case high =>
    rw [step_decoder_escHi hen he hp]
    exact exec_zcEscHi_stepped _ _ s
  case low =>
    rw [step_decoder_escLo hen he hp]
    exact exec_zcEscLo_stepped _ _ s

/-- Settles O21: the Z-chars 1 to 3 select `ZC_RSV` with the pending alphabet as its operand. -/
theorem reservedZcharAbortsDecoder : Obligations.ReservedZcharAbortsDecoder := by
  intro s a z
  refine ⟨exec_zcRsv_responded a z s, fun m e hen he hz hrsv hp => ?_⟩
  have hne : z ≠ 6 := by rcases hrsv with rfl | rfl | rfl <;> decide
  rw [step_decoder_normal hen he hz hp (fun h => hne h.2), normalInstr_reserved _ hrsv]
  exact exec_zcRsv_responded s.work.alph z s

/-- Settles O22: an open escape is an error in both modes, a pending shift in mode STRICT only. -/
theorem decoderEndOfStream : Obligations.DecoderEndOfStream := by
  intro s m hen hend
  rw [step_decoder_finish hen hend]
  refine ⟨fun hp => ?escape, fun ⟨hp, ha⟩ => ?clean, fun ⟨hp, ha⟩ => ?shift⟩
  case escape =>
    have hp0 : s.work.phase ≠ 0 := by rcases hp with hp | hp <;> simp [hp]
    exact ⟨_, by rw [finishDecoder_escape m hp0], raise_responded _ _ _ _ _⟩
  case clean => exact ⟨_, by rw [finishDecoder_ok hp (.inl ha)], respondOk_responded s⟩
  case shift =>
    cases m with
    | strict => exact ⟨_, by rw [finishDecoder_strict hp ha], raise_responded _ _ _ _ _⟩
    | lenient => exact ⟨_, by rw [finishDecoder_ok hp (.inr rfl)], respondOk_responded s⟩

end Sys2Proof

/-! The unpacker (43_packer.md R190 to R193): the length check before the stage, a word while `TERM_SEEN` is clear, and
a word after the terminator. -/

namespace Sys2Proof

open Machine Claims

/-! ### What the instructions do (43_packer.md R192, R193) -/

/-- `TERM_SEEN` apart, both kinds of word do the same. -/
theorem unpackWord_emitted (marker : Bool) (z0 z1 z2 : Zchar) (s : State) :
    Emitted { s with work.termSeen := termSeenAfter s.work.termSeen marker } (unpackWord marker z0 z1 z2 s) 2
      [z0.toNat, z1.toNat, z2.toNat] := by
  simp [Emitted, unpackWord, advance, noteMarker, emit]

theorem exec_pwMid_emitted (z0 z1 z2 : Zchar) (s : State) :
    ∃ t, exec (.pwMid z0 z1 z2) s = .next t ∧ Emitted s t 2 [z0.toNat, z1.toNat, z2.toNat] := by
  have h := unpackWord_emitted false z0 z1 z2 s
  rw [termSeenAfter, Bool.or_false] at h
  exact ⟨_, rfl, h⟩

theorem exec_pwFinal_emitted (z0 z1 z2 : Zchar) (s : State) :
    ∃ t, exec (.pwFinal z0 z1 z2) s = .next t ∧
      Emitted { s with work.termSeen := true } t 2 [z0.toNat, z1.toNat, z2.toNat] := by
  have h := unpackWord_emitted true z0 z1 z2 s
  rw [termSeenAfter, Bool.or_true] at h
  exact ⟨_, rfl, h⟩

theorem exec_pwAfterTerm_responded (n : PackedWord) (s : State) :
    ∃ t, exec (.pwAfterTerm n) s = .next t ∧
      Responded s t (failed .trailingDataAfterTerminator 0 0 s.work.idx) [] :=
  ⟨_, rfl, raise_responded _ _ _ _ _⟩

/-! ### The step of a running unpacker (30_encoding.md R75) -/

section Step
variable {s : State} {b : Bool} {high low : Elem} (hen : s.engine = .unpacker b) (hhigh : Reads s high)
  (hlow : s.work.input[s.work.idx + 1]? = some low)
include hen hhigh hlow

/-- `TERM_SEEN` and bit 15 of the word select the instruction. -/
theorem step_unpacker_word {n : PackedWord} (hn : n = wordOfBytes high.toByte low.toByte) :
    step s =
      exec
        (if s.work.termSeen then .pwAfterTerm n
          else if wordMarker n then .pwFinal (wordZ0 n) (wordZ1 n) (wordZ2 n)
          else .pwMid (wordZ0 n) (wordZ1 n) (wordZ2 n)) s := by
  rw [step_unpacker hen hhigh hlow, ← hn, decodeUnpackKey_unpackKey]

theorem step_unpacker_emitted {n : PackedWord} (hn : n = wordOfBytes high.toByte low.toByte)
    (hts : s.work.termSeen = false) :
    ∃ t, step s = .next t ∧
      Emitted { s with work.termSeen := wordMarker n } t 2 [(wordZ0 n).toNat, (wordZ1 n).toNat, (wordZ2 n).toNat] := by
  have hkeep : { s with work.termSeen := false } = s := by rw [← hts]
  rw [step_unpacker_word hen hhigh hlow hn, if_neg (by simp [hts])]
  cases wordMarker n with
  | false =>
    rw [hkeep]
    exact exec_pwMid_emitted _ _ _ s
  | true => exact exec_pwFinal_emitted _ _ _ s

theorem step_unpacker_trailing (hts : s.work.termSeen = true) :
    step s = exec (.pwAfterTerm (wordOfBytes high.toByte low.toByte)) s := by
  rw [step_unpacker_word hen hhigh hlow rfl, if_pos hts]

end Step

/-! ### The length check (43_packer.md R191) -/

theorem exec_unpack (s : State) : exec .unpack s = .next (startUnpacker false s.request.data s) := rfl

theorem exec_decodeZ (s : State) : exec .decodeZ s = .next (startUnpacker true s.request.data s) := rfl

/-- Whether a decoder follows or not, input of odd length is refused before the stage starts. -/
theorem startUnpacker_odd_responded (b : Bool) (s : State) {input : List Elem} (h : input.length % 2 = 1) :
    Responded s (startUnpacker b input s) (failed .oddLengthInput 0 0 input.length) [] := by
  rw [startUnpacker_odd b s h]
  exact raise_responded _ _ _ _ _

/-! ### The obligations -/

/-- Settles O23: with `TERM_SEEN` clear, bit 15 selects `PW_FINAL` or `PW_MID`, which emit the same Z-chars. -/
theorem unpackerAppendsThreeZchars : Obligations.UnpackerAppendsThreeZchars :=
  ⟨fun s z0 z1 z2 => ⟨exec_pwMid_emitted z0 z1 z2 s, exec_pwFinal_emitted z0 z1 z2 s⟩,
    fun _ _ _ _ _ hen hhigh hlow hn hts => step_unpacker_emitted hen hhigh hlow hn hts⟩

/-- Settles O24: with `TERM_SEEN` set, every word selects `PW_AFTER_TERM`, which does not read it. -/
theorem trailingWordAbortsUnpacker : Obligations.TrailingWordAbortsUnpacker := by
  refine ⟨fun s n => exec_pwAfterTerm_responded n s, fun s b high low hen hhigh hlow hts => ?_⟩
  rw [step_unpacker_trailing hen hhigh hlow hts]
  exact exec_pwAfterTerm_responded _ s

/-- Settles O26: both operations start the unpacker, which checks the length of its whole input first. -/
theorem oddLengthIsRefusedFirst : Obligations.OddLengthIsRefusedFirst := fun s hodd =>
  ⟨⟨_, exec_unpack s, startUnpacker_odd_responded false s hodd⟩,
    ⟨_, exec_decodeZ s, startUnpacker_odd_responded true s hodd⟩⟩

end Sys2Proof

/-! The reserved commands (60_exceptions.md R238): which bytes they are, and what one does on an idle block. -/

namespace Sys2Proof

open Machine

/-! ### Which bytes are reserved (30_encoding.md R85, R89) -/

/-- The command table and the test on the fields agree on each of the 256 bytes. -/
theorem decodeCommand_eq_reserved_iff :
    ∀ b : BitVec 8, decodeCommand b = .reserved b ↔ reservedCommand b = true := by decide

theorem reservedCommand_iff (b : BitVec 8) :
    reservedCommand b = true ↔
      commandOp b = 7#3 ∨ commandRsv b ≠ 0#4 ∨ (commandAlt b = true ∧ commandOp b ≠ 0#3) := by
  simp [reservedCommand, or_assoc]

theorem decode_cmd_eq_ok_iff (sc : ShortcutMap) (b : BitVec 8) (i : Instr) :
    decode sc (.cmd b) = .ok i ↔ decodeCommand b = i := by
  rw [decode, Except.ok.injEq]

/-! ### What a reserved command does -/

theorem exec_reserved (cmd : BitVec 8) (s : State) :
    exec (.reserved cmd) s = .next (raise .reservedOperation (cmd.setWidth 16) 0 0 s) := rfl

/-- On an idle block with an empty `OUT`, a response has no stage to end and no output to discard. -/
theorem giveResponse_of_idle {s : State} (r : ResponseState) (out : List Elem) (hidle : s.engine = .idle)
    (hout : s.work.out = []) :
    giveResponse r out s = { s with
      response := r
      responses := s.responses ++
        [{ status := r.status, errValue := r.errValue, errAlph := r.errAlph, errPos := r.errPos,
           warn := s.config.warnA2s0, out := out }] } := by
  rw [giveResponse, ← hidle, ← hout]

/-- Settles O27: the table selects `RESERVED` where the fields say so, and the error it raises is the whole effect on an
idle block. -/
theorem reservedCommandResponds : Obligations.ReservedCommandResponds := by
  refine fun sc b => ⟨?selection, fun s hidle hout => ?response⟩
  case selection =>
    rw [decode_cmd_eq_ok_iff, decodeCommand_eq_reserved_iff, reservedCommand_iff]
    rfl
  case response =>
    rw [exec_reserved, raise, giveResponse_of_idle _ _ hidle hout]
    rfl

end Sys2Proof

/-! Runs of a stage: what stays while it runs, and how it ends (10_state.md R40 to R46; 60_exceptions.md R233). -/

namespace Sys2Proof

open Machine Reference Safety Claims

/-! ### What a running stage does not write -/

/-- `t` agrees with `s` on everything but the engine, the working state and the response state. -/
structure SameFrame (s t : State) : Prop where
  responses : t.responses = s.responses
  config : t.config = s.config
  params : t.params = s.params
  request : t.request = s.request
  requests : t.requests = s.requests

theorem SameFrame.refl (s : State) : SameFrame s s := ⟨rfl, rfl, rfl, rfl, rfl⟩

theorem SameFrame.trans {s t u : State} (h : SameFrame s t) (h' : SameFrame t u) : SameFrame s u :=
  ⟨h'.responses.trans h.responses, h'.config.trans h.config, h'.params.trans h.params, h'.request.trans h.request,
    h'.requests.trans h.requests⟩

theorem sameFrame_of_emitted {s t : State} {n : Nat} {vs : List Elem} (h : Emitted s t n vs) : SameFrame s t := by
  subst h
  exact ⟨rfl, rfl, rfl, rfl, rfl⟩

theorem sameFrame_of_decoderStepped {s t : State} {vs : List Elem} {alph phase : BitVec 2}
    (h : DecoderStepped s t vs alph phase) : SameFrame s t := by
  subst h
  exact ⟨rfl, rfl, rfl, rfl, rfl⟩

theorem ended_of_sameFrame {s u t : State} {p : Response} (hf : SameFrame s u) (h : Ended u t p) : Ended s t p :=
  h.of_eq hf.responses hf.config hf.params hf.request hf.requests

theorem ended_of_responded {s t : State} {r : ResponseState} {out : List Elem} (h : Responded s t r out) :
    Ended s t
      { status := r.status, errValue := r.errValue, errAlph := r.errAlph, errPos := r.errPos,
        warn := s.config.warnA2s0, out := out } := by
  subst h
  exact giveResponse_ended r out s

/-! ### Results -/

namespace Reference

variable {α β : Type}

@[simp] theorem Result.after_ok (before out : List α) : (Result.ok out).after before = .ok (before ++ out) := rfl

@[simp] theorem Result.after_err (before : List α) (kind : ErrorKind) (value : BitVec 16) (alph : BitVec 2)
    (pos : Nat) : (Result.err kind value alph pos).after before = .err kind value alph pos := rfl

@[simp] theorem Result.after_nil (r : Result α) : r.after [] = r := by cases r <;> rfl

theorem Result.after_after (first second : List α) (r : Result α) :
    (r.after second).after first = r.after (first ++ second) := by
  cases r <;> simp

theorem Result.after_eq_ok {before out : List α} {r : Result α} (h : r.after before = .ok out) :
    ∃ rest, r = .ok rest ∧ out = before ++ rest := by
  cases r with
  | ok rest => exact ⟨rest, rfl, (Result.ok.inj h).symm⟩
  | err kind value alph pos => cases h

@[simp] theorem Result.andThen_ok (out : List α) (second : List α → Result β) :
    (Result.ok out).andThen second = second out := rfl

/-- An operation of one stage responds with what the stage has made. -/
theorem Result.andThen_respond (r : Result α) : r.andThen .ok = r := by cases r <;> rfl

end Reference

/-! ### How an operation, and how a stage, ends -/

/-- Within `n` steps from `s` the operation that runs responds with the result `r`. -/
def Responds {α : Type} (n : Nat) (s : State) (lane : α → Elem) (r : Result α) : Prop :=
  ∃ k ≤ n, ∃ t, Runs k s t ∧ Ended s t (r.response s.config.warnA2s0 lane)

section Responds
variable {α : Type} {n : Nat} {s u : State} {lane : α → Elem} {r : Result α}

theorem Responds.mono {m : Nat} (h : Responds n s lane r) (hnm : n ≤ m) : Responds m s lane r := by
  obtain ⟨k, hk, t, hrun, hend⟩ := h
  exact ⟨k, hk.trans hnm, t, hrun, hend⟩

theorem Responds.of_runs {m : Nat} (hrun : Runs m s u) (hf : SameFrame s u) (h : Responds n u lane r) :
    Responds (m + n) s lane r := by
  obtain ⟨k, hk, t, hrun', hend⟩ := h
  exact ⟨m + k, by omega, t, hrun.trans hrun', ended_of_sameFrame hf (hf.config ▸ hend)⟩

theorem Responds.of_step (hstep : step s = .next u) (hf : SameFrame s u) (h : Responds n u lane r) :
    Responds (n + 1) s lane r :=
  (Responds.of_runs (Runs.one hstep) hf h).mono (by omega)

theorem responds_err {kind : ErrorKind} {value : BitVec 16} {alph : BitVec 2} {pos : Nat}
    (h : ∃ t, step s = .next t ∧ Responded s t (failed kind value alph pos) []) :
    Responds 1 s lane (.err kind value alph pos) := by
  obtain ⟨t, hstep, hresp⟩ := h
  exact ⟨1, le_rfl, t, Runs.one hstep, ended_of_responded hresp⟩

theorem responds_ok {out : List α} (hstep : step s = .next (respondOk u)) (hf : SameFrame s u)
    (hout : u.work.out = out.map lane) : Responds 1 s lane (.ok out) := by
  refine ⟨1, le_rfl, _, Runs.one hstep, ended_of_sameFrame hf ?_⟩
  have hend := respondOk_ended u
  rwa [hout, hf.config] at hend

end Responds

/-- Within `n` steps from `s` the stage that runs has consumed its input with the result `r`: it stands at the end of
the input with its output appended to `OUT`, or has ended the operation with its error. -/
def Consumes {α : Type} (n : Nat) (s : State) (lane : α → Elem) (r : Result α) : Prop :=
  match r with
  | .ok out =>
    ∃ k ≤ n, ∃ t, Runs k s t ∧ SameFrame s t ∧ t.engine = s.engine ∧ t.work.input.length ≤ t.work.idx ∧
      t.work.out = s.work.out ++ out.map lane
  | .err kind value alph pos => Responds n s lane (.err kind value alph pos)

section Consumes
variable {α β : Type} {n m : Nat} {s u : State} {lane : α → Elem} {lane' : β → Elem} {r : Result α}

theorem consumes_nothing (h : s.work.input.length ≤ s.work.idx) : Consumes n s lane (.ok []) :=
  ⟨0, Nat.zero_le n, s, Runs.zero s, SameFrame.refl s, rfl, h, by simp⟩

theorem Consumes.of_step {out : List α} (hstep : step s = .next u) (hf : SameFrame s u) (hen : u.engine = s.engine)
    (hout : u.work.out = s.work.out ++ out.map lane) (h : Consumes n u lane r) :
    Consumes (n + 1) s lane (r.after out) := by
  cases r with
  | ok rest =>
    obtain ⟨k, hk, t, hrun, hf', hen', hend, hout'⟩ := h
    exact ⟨k + 1, by omega, t, Runs.succ hstep hrun, hf.trans hf', hen'.trans hen, hend, by simp [hout', hout]⟩
  | err kind value alph pos => exact Responds.of_step hstep hf h

theorem Consumes.mono (h : Consumes n s lane r) (hnm : n ≤ m) : Consumes m s lane r := by
  cases r with
  | ok out =>
    obtain ⟨k, hk, t, ht⟩ := h
    exact ⟨k, hk.trans hnm, t, ht⟩
  | err kind value alph pos => exact Responds.mono h hnm

/-- A stage with an empty `OUT`, and what follows it where it succeeds. -/
theorem Consumes.andThen {second : List α → Result β} (h : Consumes n s lane r) (hempty : s.work.out = [])
    (hnext : ∀ t out, r = .ok out → SameFrame s t → t.engine = s.engine → t.work.input.length ≤ t.work.idx →
      t.work.out = out.map lane → Responds m t lane' (second out)) :
    Responds (n + m) s lane' (r.andThen second) := by
  cases r with
  | ok out =>
    obtain ⟨k, hk, t, hrun, hf, hen, hend, hout⟩ := h
    exact (Responds.of_runs hrun hf (hnext t out rfl hf hen hend (by simpa [hempty] using hout))).mono (by omega)
  | err kind value alph pos => exact Responds.mono h (Nat.le_add_right n m)

end Consumes

/-! ### The encoder (41_encoder.md R130 to R137) -/

/-- `ENC_Z` from the element at index `pos` on. -/
def encZFrom (sc : ShortcutMap) (pos : Nat) : List Nat → Result Zchar
  | [] => .ok []
  | c :: rest =>
    if 1024 ≤ c then .err .zsciiCodepointOutOfRange (errValueOfInput c) 0 pos
    else (encZFrom sc (pos + 1) rest).after (zcharsOf sc c)

theorem encZFrom_of_findIdx?_none {sc : ShortcutMap} {data : List Nat} (pos : Nat)
    (h : data.findIdx? (fun c => 1024 ≤ c) = none) : encZFrom sc pos data = .ok (data.flatMap (zcharsOf sc)) := by
  induction data generalizing pos with
  | nil => rfl
  | cons c rest ih =>
    obtain ⟨hc, hrest⟩ : c < 1024 ∧ rest.findIdx? (fun c => 1024 ≤ c) = none := by
      simpa [List.findIdx?_eq_none_iff] using h
    rw [encZFrom, if_neg (Nat.not_le.mpr hc), ih _ hrest]
    rfl

theorem encZFrom_of_findIdx?_some {sc : ShortcutMap} {data : List Nat} {i : Nat} (pos : Nat)
    (h : data.findIdx? (fun c => 1024 ≤ c) = some i) :
    encZFrom sc pos data = .err .zsciiCodepointOutOfRange (errValueOfInput (data.getD i 0)) 0 (pos + i) := by
  induction data generalizing pos i with
  | nil => cases h
  | cons c rest ih =>
    rw [encZFrom]
    rw [List.findIdx?_cons] at h
    by_cases hc : 1024 ≤ c
    · obtain rfl : 0 = i := by simpa [hc] using h
      simp [hc]
    · obtain ⟨j, hj, rfl⟩ : ∃ j, rest.findIdx? (fun c => 1024 ≤ c) = some j ∧ j + 1 = i := by simpa [hc] using h
      simp [hc, ih _ hj, Nat.add_assoc, Nat.add_comm 1 j]

theorem encZ_eq_encZFrom (sc : ShortcutMap) (data : List Nat) : encZ sc data = encZFrom sc 0 data := by
  unfold encZ
  split
  next i hi => rw [encZFrom_of_findIdx?_some 0 hi, Nat.zero_add]
  next hnone => rw [encZFrom_of_findIdx?_none 0 hnone]

theorem length_zcharsOf_le (sc : ShortcutMap) (c : Nat) : (zcharsOf sc c).length ≤ 4 := by
  unfold zcharsOf
  split
  · simp
  · split
    next sh _ => cases sh <;> simp [Reference.Shortcut.zchars]
    next => simp

theorem length_encZFrom_le {sc : ShortcutMap} {pos : Nat} {data : List Nat} {out : List Zchar}
    (h : encZFrom sc pos data = .ok out) : out.length ≤ 4 * data.length := by
  induction data generalizing pos out with
  | nil =>
    obtain rfl := Result.ok.inj h
    simp
  | cons c rest ih =>
    rw [encZFrom] at h
    split at h
    · cases h
    · obtain ⟨tail, hrest, rfl⟩ := Result.after_eq_ok h
      have htail := ih hrest
      have hhead := length_zcharsOf_le sc c
      simp only [List.length_append, List.length_cons]
      omega

/-- A codepoint's class emits the Z-chars of the codepoint. -/
theorem exec_decodeZscii_emitted (sc : ShortcutMap) {c : Nat} (h : c < 1024) (s : State) :
    ∃ t, exec (decodeZscii sc c) s = .next t ∧ Emitted s t 1 ((zcharsOf sc c).map Elem.ofZchar) := by
  unfold zcharsOf
  by_cases hspace : c = 0x0020
  · subst hspace
    rw [decodeZscii_space]
    exact exec_encSpace_emitted s
  · rw [if_neg hspace]
    cases hsc : scGet sc (zsciiOfInput c) with
    | none =>
      rw [decodeZscii_none h hspace hsc]
      exact exec_encEsc_emitted _ s
    | some sh =>
      cases sh with
      | one z =>
        rw [decodeZscii_one h hspace hsc]
        exact exec_encSc1_emitted _ z s
      | two shift z =>
        rw [decodeZscii_two h hspace hsc]
        exact exec_encSc2_emitted _ shift z s

theorem encoder_consumes {b : Bool} {rest : List Elem} {s : State} (hen : s.engine = .encoder b)
    (hrest : s.work.input.drop s.work.idx = rest) :
    Consumes rest.length s Elem.ofZchar
      (encZFrom s.config.sc s.work.idx (rest.map (zsciiPort s.params.zsciiInW))) := by
  induction rest generalizing s with
  | nil => exact consumes_nothing (List.drop_eq_nil_iff.mp hrest)
  | cons e rest ih =>
    obtain ⟨he, htail⟩ := drop_cons hrest
    rw [List.map_cons, encZFrom]
    split
    next hrange =>
      refine Responds.mono (responds_err ?_) (Nat.le_add_left 1 _)
      rw [step_encoder hen he, decodeZscii_outOfRange _ hrange]
      exact exec_encOor_responded _ s
    next hrange =>
      obtain ⟨t, hexec, ht⟩ := exec_decodeZscii_emitted s.config.sc (Nat.lt_of_not_le hrange) s
      have hstep := (step_encoder hen he).trans hexec
      have hf := sameFrame_of_emitted ht
      subst ht
      exact Consumes.of_step hstep hf rfl rfl (ih hen htail)

/-! ### The unpacker (43_packer.md R190 to R193) -/

theorem unpackFrom_trailing (pos : Nat) (high low : Byte) (rest : List Byte) :
    unpackFrom true pos (high :: low :: rest) = .err .trailingDataAfterTerminator 0 0 pos := by
  rw [unpackFrom, if_pos rfl]

theorem unpackFrom_word (pos : Nat) {high low : Byte} (rest : List Byte) {n : PackedWord}
    (hn : n = wordOfBytes high low) :
    unpackFrom false pos (high :: low :: rest) =
      (unpackFrom (wordMarker n) (pos + 2) rest).after [wordZ0 n, wordZ1 n, wordZ2 n] := by
  subst hn
  rw [unpackFrom, if_neg (by decide)]

theorem length_unpackFrom_le {termSeen : Bool} {pos : Nat} (data : List Byte) {out : List Zchar}
    (h : unpackFrom termSeen pos data = .ok out) : out.length ≤ 3 * data.length := by
  match data, termSeen with
  | [], _ | [_], _ =>
    obtain rfl := Result.ok.inj h
    exact Nat.zero_le _
  | high :: low :: rest, true => cases h
  | high :: low :: rest, false =>
    rw [unpackFrom_word pos rest rfl] at h
    obtain ⟨tail, hrest, rfl⟩ := Result.after_eq_ok h
    have htail := length_unpackFrom_le rest hrest
    simp only [List.length_append, List.length_cons, List.length_nil]
    omega

theorem unpacker_consumes {b : Bool} (rest : List Elem) {s : State} (hen : s.engine = .unpacker b)
    (hrest : s.work.input.drop s.work.idx = rest) (heven : rest.length % 2 = 0) :
    Consumes rest.length s Elem.ofZchar (unpackFrom s.work.termSeen s.work.idx (rest.map Elem.toByte)) := by
  match rest with
  | [] => exact consumes_nothing (List.drop_eq_nil_iff.mp hrest)
  | [_] => simp at heven
  | high :: low :: rest =>
    obtain ⟨hhigh, htail⟩ := drop_cons hrest
    obtain ⟨hlow, htail⟩ := drop_cons htail
    rw [List.map_cons, List.map_cons]
    cases hts : s.work.termSeen with
    | true =>
      refine unpackFrom_trailing _ _ _ _ ▸ Responds.mono (responds_err ?_) (Nat.le_add_left 1 _)
      rw [step_unpacker_trailing hen hhigh hlow hts]
      exact exec_pwAfterTerm_responded _ s
    | false =>
      obtain ⟨t, hstep, ht⟩ := step_unpacker_emitted hen hhigh hlow rfl hts
      have heven' : rest.length % 2 = 0 := by simpa [Nat.add_assoc] using heven
      rw [unpackFrom_word _ _ rfl]
      subst ht
      refine Consumes.mono (Consumes.of_step hstep ⟨rfl, rfl, rfl, rfl, rfl⟩ rfl rfl ?_) (Nat.le_succ _)
      exact unpacker_consumes rest hen htail heven'

end Sys2Proof

/-! The run of the decoder (42_decoder.md): its one-Z-char steps do what the source's table does, whose escape takes two
Z-chars at once (R163). -/

namespace Sys2Proof

open Machine Reference Safety Claims

/-! ### The source's transition table, row by row -/

section Table
variable (table : AlphabetTable) (mode : EndMode) (alph : BitVec 2) (pos : Nat)

theorem zdecodeFrom_nil_ok {table : AlphabetTable} {mode : EndMode} {alph : BitVec 2} {pos : Nat}
    (h : alph = 0 ∨ mode = .lenient) : zdecodeFrom table mode alph pos [] = .ok [] := by
  rw [zdecodeFrom, if_neg]
  rintro ⟨ha, hm⟩
  rcases h with h | h
  · exact ha h
  · rw [hm] at h
    cases h

theorem zdecodeFrom_nil_strict {alph : BitVec 2} (h : alph ≠ 0) :
    zdecodeFrom table .strict alph pos [] = .err .truncatedInput 0 0 pos := by
  rw [zdecodeFrom, if_pos ⟨h, rfl⟩]

theorem zdecodeFrom_space (rest : List Zchar) :
    zdecodeFrom table mode alph pos (0 :: rest) = (zdecodeFrom table mode 0 (pos + 1) rest).after [0x020] := by
  rw [zdecodeFrom.eq_def]
  rfl

theorem zdecodeFrom_reserved {z : Zchar} (h : z = 1 ∨ z = 2 ∨ z = 3) (rest : List Zchar) :
    zdecodeFrom table mode alph pos (z :: rest) = .err .unknownZchar (z.setWidth 16) alph pos := by
  rw [zdecodeFrom.eq_def]
  rcases h with rfl | rfl | rfl <;> rfl

theorem zdecodeFrom_shiftA1 (rest : List Zchar) :
    zdecodeFrom table mode alph pos (4 :: rest) = zdecodeFrom table mode 1 (pos + 1) rest := by
  rw [zdecodeFrom.eq_def]
  rfl

theorem zdecodeFrom_shiftA2 (rest : List Zchar) :
    zdecodeFrom table mode alph pos (5 :: rest) = zdecodeFrom table mode 2 (pos + 1) rest := by
  rw [zdecodeFrom.eq_def]
  rfl

theorem zdecodeFrom_escape (high low : Zchar) (rest : List Zchar) :
    zdecodeFrom table mode 2 pos (6 :: high :: low :: rest) =
      (zdecodeFrom table mode 0 (pos + 3) rest).after [escapeCodepoint high low] := by
  rw [zdecodeFrom.eq_def]
  rfl

theorem zdecodeFrom_truncatedEscape {rest : List Zchar} (h : rest.length < 2) :
    zdecodeFrom table mode 2 pos (6 :: rest) = .err .truncatedEscape 0 0 (pos + 1 + rest.length) := by
  match rest with
  | [] | [_] => rw [zdecodeFrom.eq_def]; rfl
  | _ :: _ :: _ => simp at h

theorem zdecodeFrom_literal {z : Zchar} {alph : BitVec 2} (h : 6 ≤ z) (hesc : ¬(z = 6 ∧ alph = 2))
    (hi : literalIndex alph z < 78) (rest : List Zchar) :
    zdecodeFrom table mode alph pos (z :: rest) =
      (zdecodeFrom table mode 0 (pos + 1) rest).after [table[literalIndex alph z]] := by
  have hne (c : Zchar) (hc : c < 6) : z ≠ c := fun heq => absurd hc (BitVec.not_lt.mpr (heq ▸ h))
  have hentry : (alphaEntry table (26 * alph.toNat + (z.toNat - 6))).getD 0 = table[literalIndex alph z] := by
    show (alphaEntry table (literalIndex alph z)).getD 0 = _
    rw [alphaEntry_eq_some_iff.mpr ⟨hi, rfl⟩]
    rfl
  rw [zdecodeFrom.eq_def]
  simp only [hne 0 (by decide), hne 1 (by decide), hne 2 (by decide), hne 3 (by decide), hne 4 (by decide),
    hne 5 (by decide), hesc, hentry, or_self, if_false]

end Table

/-- Every Z-char is space, reserved, a shift, the escape or a literal (30_encoding.md R72). -/
theorem zchar_cases (alph : BitVec 2) (z : Zchar) :
    z = 0 ∨ (z = 1 ∨ z = 2 ∨ z = 3) ∨ z = 4 ∨ z = 5 ∨ (z = 6 ∧ alph = 2) ∨ (6 ≤ z ∧ ¬(z = 6 ∧ alph = 2)) := by
  revert alph z
  decide

/-- Everything the end of a decoding stage can do (42_decoder.md R162, R164, R165). -/
theorem finishDecoder_cases (m : EndMode) (s : State) :
    (s.work.phase ≠ 0 ∧ finishDecoder m s = raise .truncatedEscape 0 0 s.work.input.length s) ∨
    (s.work.phase = 0 ∧ s.work.alph ≠ 0 ∧ m = .strict ∧
      finishDecoder m s = raise .truncatedInput 0 0 s.work.input.length s) ∨
    (s.work.phase = 0 ∧ (s.work.alph = 0 ∨ m = .lenient) ∧ finishDecoder m s = respondOk s) := by
  by_cases hphase : s.work.phase = 0
  · by_cases halph : s.work.alph = 0
    · exact .inr (.inr ⟨hphase, .inl halph, finishDecoder_ok hphase (.inl halph)⟩)
    · cases m with
      | strict => exact .inr (.inl ⟨hphase, halph, rfl, finishDecoder_strict hphase halph⟩)
      | lenient => exact .inr (.inr ⟨hphase, .inr rfl, finishDecoder_ok hphase (.inr rfl)⟩)
  · exact .inl ⟨hphase, finishDecoder_escape m hphase⟩

/-! ### The decoder between two Z-chars -/

/-- A running decoder in front of the Z-chars `zs`, with its registers, having made `done`. -/
structure DecoderAt (m : EndMode) (alph phase : BitVec 2) (pos : Nat) (zs : List Zchar) (done : List Zscii)
    (s : State) : Prop where
  engine : s.engine = .decoder m
  alph : s.work.alph = alph
  phase : s.work.phase = phase
  idx : s.work.idx = pos
  length : pos + zs.length = s.work.input.length
  left : (s.work.input.drop s.work.idx).map Elem.toZchar = zs
  out : s.work.out = done.map Elem.ofZscii

section DecoderAt
variable {m : EndMode} {alph phase : BitVec 2} {pos : Nat} {z : Zchar} {zs : List Zchar} {done : List Zscii}
  {s t : State}

theorem DecoderAt.reads (h : DecoderAt m alph phase pos (z :: zs) done s) :
    ∃ e, Reads s e ∧ z = BitVec.ofNat 5 e ∧ (s.work.input.drop (s.work.idx + 1)).map Elem.toZchar = zs := by
  obtain ⟨e, rest, hdrop, hz, hzs⟩ := List.map_eq_cons_iff.mp h.left
  obtain ⟨hread, hrest⟩ := drop_cons hdrop
  exact ⟨e, hread, hz.symm, hrest ▸ hzs⟩

theorem DecoderAt.stepped {vs : List Zscii} {alph' phase' : BitVec 2}
    (h : DecoderAt m alph phase pos (z :: zs) done s)
    (ht : DecoderStepped s t (vs.map Elem.ofZscii) alph' phase') :
    DecoderAt m alph' phase' (pos + 1) zs (done ++ vs) t := by
  obtain ⟨e, -, -, hleft⟩ := h.reads
  subst ht
  have hlen := h.length
  exact ⟨h.engine, rfl, rfl, congrArg (· + 1) h.idx, by simpa [Nat.add_assoc, Nat.add_comm 1] using hlen, hleft,
    by simp [h.out]⟩

theorem DecoderAt.latched (h : DecoderAt m alph phase pos zs done s) (high : Zchar) :
    DecoderAt m alph phase pos zs done { s with work.escHiLatch := high } :=
  ⟨h.engine, h.alph, h.phase, h.idx, h.length, h.left, h.out⟩

theorem DecoderAt.step_normal (h : DecoderAt m alph 0 pos (z :: zs) done s) (ha : alph ≠ 3) :
    step s = exec (normalInstr alph z) s := by
  obtain ⟨e, hread, hz, -⟩ := h.reads
  rw [step_decoder_normal h.engine hread hz h.phase (fun h3 => ha (h.alph ▸ h3.1)), h.alph]

theorem DecoderAt.step_finish (h : DecoderAt m alph phase pos [] done s) :
    step s = .next (finishDecoder m s) :=
  step_decoder_finish h.engine (h.idx.trans h.length)

/-- The marker of an escape (R157). -/
theorem DecoderAt.step_escape (h : DecoderAt m 2 0 pos (6 :: zs) done s) :
    ∃ t, step s = .next t ∧ SameFrame s t ∧ DecoderAt m 2 1 (pos + 1) zs done t := by
  obtain ⟨t, hexec, ht⟩ := exec_zcEscape_stepped s
  have hat := h.stepped (vs := []) ht
  rw [h.alph, List.append_nil] at hat
  exact ⟨t, (h.step_normal (by decide)).trans hexec, sameFrame_of_decoderStepped ht, hat⟩

/-- The first operand of an escape (R160). -/
theorem DecoderAt.step_escHi {high : Zchar} (h : DecoderAt m alph 1 pos (high :: zs) done s) :
    ∃ t, step s = .next t ∧ SameFrame s t ∧ t.work.escHiLatch = high ∧ DecoderAt m alph 2 (pos + 1) zs done t := by
  obtain ⟨e, hread, rfl, -⟩ := h.reads
  obtain ⟨t, hexec, ht⟩ := exec_zcEscHi_stepped s.work.alph (BitVec.ofNat 5 e) s
  have hat := (h.latched (BitVec.ofNat 5 e)).stepped (vs := []) ht
  rw [h.alph, List.append_nil] at hat
  refine ⟨t, (step_decoder_escHi h.engine hread h.phase).trans hexec, ?_, ?_, hat⟩
  · subst ht
    exact ⟨rfl, rfl, rfl, rfl, rfl⟩
  · rw [ht]

/-- The second operand (R161). -/
theorem DecoderAt.step_escLo {high low : Zchar} (h : DecoderAt m alph 2 pos (low :: zs) done s)
    (hlatch : s.work.escHiLatch = high) :
    ∃ t, step s = .next t ∧ SameFrame s t ∧ DecoderAt m 0 0 (pos + 1) zs (done ++ [escapeCodepoint high low]) t := by
  obtain ⟨e, hread, rfl, -⟩ := h.reads
  obtain ⟨t, hexec, ht⟩ := exec_zcEscLo_stepped s.work.alph (BitVec.ofNat 5 e) s
  rw [hlatch] at ht
  exact ⟨t, (step_decoder_escLo h.engine hread h.phase).trans hexec, sameFrame_of_decoderStepped ht,
    h.stepped (vs := [escapeCodepoint high (BitVec.ofNat 5 e)]) ht⟩

/-- An input that ends inside an escape (R162). -/
theorem DecoderAt.responds_truncated {α : Type} {lane : α → Elem} (h : DecoderAt m alph phase pos [] done s)
    (hphase : phase ≠ 0) : Responds 1 s lane (.err .truncatedEscape 0 0 pos) := by
  refine responds_err ⟨_, h.step_finish.trans ?_, raise_responded _ _ _ _ s⟩
  rw [finishDecoder_escape m (h.phase ▸ hphase), ← h.length]
  rfl

/-! ### The rows of the source's table, as runs -/

/-- A Z-char that its own step carries out, before the rest of the input. -/
theorem DecoderAt.responds_of_stepped {vs : List Zscii} {alph' : BitVec 2} {r : Result Zscii}
    (h : DecoderAt m alph 0 pos (z :: zs) done s) (ha : alph ≠ 3)
    (hexec : ∃ t, exec (normalInstr alph z) s = .next t ∧ DecoderStepped s t (vs.map Elem.ofZscii) alph' s.work.phase)
    (hrest : ∀ t, SameFrame s t → DecoderAt m alph' 0 (pos + 1) zs (done ++ vs) t →
      Responds (zs.length + 1) t Elem.ofZscii (r.after (done ++ vs))) :
    Responds ((z :: zs).length + 1) s Elem.ofZscii ((r.after vs).after done) := by
  obtain ⟨t, hexec, ht⟩ := hexec
  have hf := sameFrame_of_decoderStepped ht
  rw [Result.after_after]
  exact Responds.of_step ((h.step_normal ha).trans hexec) hf (hrest t hf (h.phase ▸ h.stepped ht))

/-- The escape: three steps, before the rest of the input. -/
theorem DecoderAt.responds_of_escape {high low : Zchar} {r : Result Zscii}
    (h : DecoderAt m 2 0 pos (6 :: high :: low :: zs) done s)
    (hrest : ∀ t, SameFrame s t → DecoderAt m 0 0 (pos + 3) zs (done ++ [escapeCodepoint high low]) t →
      Responds (zs.length + 1) t Elem.ofZscii (r.after (done ++ [escapeCodepoint high low]))) :
    Responds ((6 :: high :: low :: zs).length + 1) s Elem.ofZscii
      ((r.after [escapeCodepoint high low]).after done) := by
  obtain ⟨t, hstep, hf, ht⟩ := h.step_escape
  obtain ⟨u, hstep', hf', hlatch, hu⟩ := ht.step_escHi
  obtain ⟨v, hstep'', hf'', hv⟩ := hu.step_escLo hlatch
  rw [Result.after_after]
  exact .of_step hstep hf (.of_step hstep' hf' (.of_step hstep'' hf'' (hrest v ((hf.trans hf').trans hf'') hv)))

/-- The escape with fewer than two Z-chars after it. -/
theorem DecoderAt.responds_of_truncatedEscape {α : Type} {lane : α → Elem}
    (h : DecoderAt m 2 0 pos (6 :: zs) done s) (hshort : zs.length < 2) :
    Responds ((6 :: zs).length + 1) s lane (.err .truncatedEscape 0 0 (pos + 1 + zs.length)) := by
  obtain ⟨t, hstep, hf, ht⟩ := h.step_escape
  refine .of_step hstep hf ?_
  match zs with
  | [] => exact ht.responds_truncated (by decide)
  | [high] =>
    obtain ⟨u, hstep', hf', -, hu⟩ := ht.step_escHi
    exact .of_step hstep' hf' (hu.responds_truncated (by decide))
  | _ :: _ :: _ => simp at hshort

/-- The end of the input between two Z-chars (R164, R165). -/
theorem DecoderAt.responds_of_end {table : AlphabetTable} (h : DecoderAt m alph 0 pos [] done s) :
    Responds 1 s Elem.ofZscii ((zdecodeFrom table m alph pos []).after done) := by
  rcases finishDecoder_cases m s with ⟨hphase, -⟩ | ⟨-, halph, rfl, hfin⟩ | ⟨-, hend, hfin⟩
  · exact absurd h.phase hphase
  · rw [zdecodeFrom_nil_strict table pos (h.alph ▸ halph), Result.after_err]
    refine responds_err ⟨_, h.step_finish.trans ?_, raise_responded _ _ _ _ s⟩
    rw [hfin, ← h.length]
    rfl
  · rw [zdecodeFrom_nil_ok (h.alph ▸ hend), Result.after_ok, List.append_nil]
    exact responds_ok (h.step_finish.trans (by rw [hfin])) (SameFrame.refl s) h.out

end DecoderAt

theorem decoder_responds {table : AlphabetTable} {m : EndMode} {alph : BitVec 2} {pos : Nat} {zs : List Zchar}
    {done : List Zscii} {s : State} (htable : s.config.alpha = table) (h : DecoderAt m alph 0 pos zs done s)
    (ha : alph ≠ 3) :
    Responds (zs.length + 1) s Elem.ofZscii ((zdecodeFrom table m alph pos zs).after done) := by
  induction hn : zs.length using Nat.strongRecOn generalizing alph pos zs done s with
  | ind n ih =>
  subst hn
  have next {t : State} {alph' : BitVec 2} {pos' : Nat} {zs' : List Zchar} {done' : List Zscii} (hf : SameFrame s t)
      (hlt : zs'.length < zs.length) (ha' : alph' ≠ 3) (ht : DecoderAt m alph' 0 pos' zs' done' t) :
      Responds (zs'.length + 1) t Elem.ofZscii ((zdecodeFrom table m alph' pos' zs').after done') :=
    ih _ hlt (by rw [hf.config, htable]) ht ha' rfl
  cases zs with
  | nil => exact h.responds_of_end
  | cons z zs =>
    have hlt := Nat.lt_succ_self zs.length
    rcases zchar_cases alph z with rfl | hrsv | rfl | rfl | ⟨rfl, rfl⟩ | ⟨h6, hesc⟩
    · rw [zdecodeFrom_space]
      exact h.responds_of_stepped ha (exec_zcSpace_stepped alph s) fun t hf ht => next hf hlt (by decide) ht
    · rw [zdecodeFrom_reserved _ _ _ _ hrsv, Result.after_err]
      refine Responds.mono (responds_err ?_) (Nat.le_add_left 1 _)
      rw [h.step_normal ha, normalInstr_reserved alph hrsv, ← h.idx]
      exact exec_zcRsv_responded alph z s
    · rw [zdecodeFrom_shiftA1, ← Result.after_nil (zdecodeFrom _ _ _ _ _)]
      exact h.responds_of_stepped ha (exec_zcShiftA1_stepped alph s) fun t hf ht => next hf hlt (by decide) ht
    · rw [zdecodeFrom_shiftA2, ← Result.after_nil (zdecodeFrom _ _ _ _ _)]
      exact h.responds_of_stepped ha (exec_zcShiftA2_stepped alph s) fun t hf ht => next hf hlt (by decide) ht
    · match zs with
      | [] | [_] =>
        rw [zdecodeFrom_truncatedEscape _ _ _ (by simp), Result.after_err]
        exact h.responds_of_truncatedEscape (by simp)
      | high :: low :: rest =>
        rw [zdecodeFrom_escape]
        exact h.responds_of_escape fun t hf ht => next hf (by simp only [List.length_cons]; omega) (by decide) ht
    · obtain ⟨hi, hexec⟩ := exec_zcLit_stepped ha z s
      subst htable
      rw [zdecodeFrom_literal _ _ _ h6 hesc hi]
      refine h.responds_of_stepped ha ?_ fun t hf ht => next hf hlt (by decide) ht
      rw [normalInstr_literal h6 hesc]
      exact hexec

end Sys2Proof

/-! The run of the packer (43_packer.md R180 to R187): one Z-char a step, one word for each group of three. -/

namespace Sys2Proof

open Machine Reference Safety Claims

/-- A running packer that has taken `group` into `GRP`, in front of the Z-chars `zs`, having made `done`. -/
structure PackerAt (group zs : List Zchar) (done : List Byte) (s : State) : Prop where
  engine : s.engine = .packer
  gcnt : s.work.gcnt.val = group.length
  grp : ∀ (i : Nat) (h : i < 3) (z : Zchar), group[i]? = some z → s.work.grp[i] = z
  length : s.work.idx + zs.length = s.work.input.length
  left : (s.work.input.drop s.work.idx).map Elem.toZchar = zs
  out : s.work.out = done.map Elem.ofByte

section PackerAt
variable {a b c z : Zchar} {group zs : List Zchar} {done : List Byte} {s : State}

theorem PackerAt.step_eq (h : PackerAt group (z :: zs) done s) :
    step s = .next (packElement z s) ∧ (s.work.input.drop (s.work.idx + 1)).map Elem.toZchar = zs := by
  obtain ⟨e, rest, hdrop, rfl, hzs⟩ := List.map_eq_cons_iff.mp h.left
  obtain ⟨hread, hrest⟩ := drop_cons hdrop
  exact ⟨step_packer h.engine hread, hrest ▸ hzs⟩

theorem PackerAt.length_next (h : PackerAt group (z :: zs) done s) :
    s.work.idx + 1 + zs.length = s.work.input.length := by
  rw [← h.length, List.length_cons]
  omega

theorem PackerAt.step_first (h : PackerAt [] (a :: zs) done s) :
    ∃ t, step s = .next t ∧ SameFrame s t ∧ PackerAt [a] zs done t := by
  obtain ⟨hstep, hleft⟩ := h.step_eq
  rw [packElement_first a (Fin.ext h.gcnt)] at hstep
  refine ⟨_, hstep, ⟨rfl, rfl, rfl, rfl, rfl⟩, h.engine, rfl, ?_, h.length_next, hleft, h.out⟩
  rintro (_ | i) hi z hz
  · simpa using hz
  · simp at hz

theorem PackerAt.step_second (h : PackerAt [a] (b :: zs) done s) :
    ∃ t, step s = .next t ∧ SameFrame s t ∧ PackerAt [a, b] zs done t := by
  obtain ⟨hstep, hleft⟩ := h.step_eq
  rw [packElement_second b (Fin.ext h.gcnt)] at hstep
  refine ⟨_, hstep, ⟨rfl, rfl, rfl, rfl, rfl⟩, h.engine, rfl, ?_, h.length_next, hleft, h.out⟩
  rintro (_ | _ | i) hi z hz
  · obtain rfl : a = z := by simpa using hz
    simpa using h.grp 0 (by decide) a rfl
  · simpa using hz
  · simp at hz

/-- The third Z-char of a group makes a word, the final one at the end of the input. -/
theorem PackerAt.step_third (h : PackerAt [a, b] (c :: zs) done s) :
    ∃ t, step s = .next t ∧ SameFrame s t ∧ PackerAt [] zs (done ++ wordBytes zs.isEmpty a b c) t := by
  obtain ⟨hstep, hleft⟩ := h.step_eq
  rw [packElement_third c (Fin.ext h.gcnt), h.grp 0 (by decide) a rfl, h.grp 1 (by decide) b rfl] at hstep
  have hfinal : finalWord s.work.idx s.work.input.length = zs.isEmpty := by
    rw [finalWord, ← h.length_next]
    cases zs <;> simp
  rw [hfinal] at hstep
  refine ⟨_, hstep, ⟨rfl, rfl, rfl, rfl, rfl⟩, h.engine, rfl, ?_, h.length_next, hleft, ?_⟩
  · intro i hi z hz
    simp at hz
  · simp [h.out, wordBytes]

theorem PackerAt.step_finish (h : PackerAt group [] done s) : step s = .next (respondOk (flushGroup s)) := by
  have hstep : step s = .next (finishStage s) := Machine.step_finish (by simp [h.engine]) h.length.ge
  rwa [finishStage, h.engine] at hstep

/-- A full last group needs no padding. -/
theorem PackerAt.responds_of_full (h : PackerAt [] [] done s) : Responds 1 s Elem.ofByte (.ok done) := by
  refine responds_ok h.step_finish ?_ ?_
  · rw [flushGroup_empty (Fin.ext h.gcnt)]
    exact SameFrame.refl s
  · rw [flushGroup_empty (Fin.ext h.gcnt), h.out]

/-- A short last group is padded and is the final word (R182, R184). -/
theorem flushGroup_short {group : Vector Zchar 3} (h : s.work.gcnt ≠ 0)
    (hpad : padGroup s = { s with work.grp := group, work.gcnt := 3 }) :
    SameFrame s (flushGroup s) ∧
      (flushGroup s).work.out = s.work.out ++ (wordBytes true group[0] group[1] group[2]).map Elem.ofByte := by
  rw [flushGroup, if_neg h, hpad]
  exact ⟨⟨rfl, rfl, rfl, rfl, rfl⟩, List.append_assoc _ _ _⟩

theorem PackerAt.responds_of_one (h : PackerAt [a] [] done s) :
    Responds 1 s Elem.ofByte (.ok (done ++ wordBytes true a 5 5)) := by
  have hcnt : s.work.gcnt = 1 := Fin.ext h.gcnt
  obtain ⟨hf, hout⟩ := flushGroup_short (by simp [hcnt]) (padGroup_one hcnt)
  refine responds_ok h.step_finish hf ?_
  rw [hout, h.out, List.map_append, ← h.grp 0 (by decide) a rfl]
  rfl

theorem PackerAt.responds_of_two (h : PackerAt [a, b] [] done s) :
    Responds 1 s Elem.ofByte (.ok (done ++ wordBytes true a b 5)) := by
  have hcnt : s.work.gcnt = 2 := Fin.ext h.gcnt
  obtain ⟨hf, hout⟩ := flushGroup_short (by simp [hcnt]) (padGroup_two hcnt)
  refine responds_ok h.step_finish hf ?_
  rw [hout, h.out, List.map_append, ← h.grp 0 (by decide) a rfl, ← h.grp 1 (by decide) b rfl]
  rfl

end PackerAt

theorem packer_responds {zs : List Zchar} {done : List Byte} {s : State} (h : PackerAt [] zs done s) :
    Responds (zs.length + 1) s Elem.ofByte (.ok (done ++ packZ zs)) := by
  induction zs using packZ.induct generalizing done s with
  | case1 =>
    rw [packZ, List.append_nil]
    exact h.responds_of_full
  | case2 a =>
    obtain ⟨t, hstep, hf, ht⟩ := h.step_first
    exact .of_step hstep hf ht.responds_of_one
  | case3 a b =>
    obtain ⟨t, hstep, hf, ht⟩ := h.step_first
    obtain ⟨u, hstep', hf', hu⟩ := ht.step_second
    exact .of_step hstep hf (.of_step hstep' hf' hu.responds_of_two)
  | case4 a b c =>
    obtain ⟨t, hstep, hf, ht⟩ := h.step_first
    obtain ⟨u, hstep', hf', hu⟩ := ht.step_second
    obtain ⟨v, hstep'', hf'', hv⟩ := hu.step_third
    exact .of_step hstep hf (.of_step hstep' hf' (.of_step hstep'' hf'' hv.responds_of_full))
  | case5 a b c d rest ih =>
    obtain ⟨t, hstep, hf, ht⟩ := h.step_first
    obtain ⟨u, hstep', hf', hu⟩ := ht.step_second
    obtain ⟨v, hstep'', hf'', hv⟩ := hu.step_third
    have hrest := ih hv
    rw [List.append_assoc] at hrest
    exact .of_step hstep hf (.of_step hstep' hf' (.of_step hstep'' hf'' hrest))

end Sys2Proof

/-! Serving a request (70_reset_and_hazards.md R272): the response and the next configuration as a function of the
parameters, the configuration and the request, and the run that gives them. -/

namespace Sys2Proof

open Machine Reference Safety Claims

/-! ### Commands -/

/-- The command of a byte: `CONFIGURE`, an operation that runs a stage, or a reserved command (30_encoding.md R85). -/
theorem decodeCommand_cases : ∀ b : BitVec 8,
    (∃ alt, decodeCommand b = .configure alt) ∨ decodeCommand b = .encZ ∨ decodeCommand b = .decZ ∨
      decodeCommand b = .pack ∨ decodeCommand b = .unpack ∨ decodeCommand b = .encodeZ ∨ decodeCommand b = .decodeZ ∨
      decodeCommand b = .reserved b := by
  decide

/-- The response that shows a response state. -/
def shown (r : ResponseState) (warn : Bool) (out : List Elem) : Response :=
  { status := r.status, errValue := r.errValue, errAlph := r.errAlph, errPos := r.errPos, warn := warn, out := out }

/-- What loading an alphabet leaves in the response state and the configuration (40_configure.md R103 to R106). -/
def loaded (p : Params) (c : Configuration) (entries : List Zscii) : ResponseState × Configuration :=
  if h : entries.toArray.size = 78 then
    let table : AlphabetTable := ⟨entries.toArray, h⟩
    if table[52] ≠ 0x000 ∧ p.a2Slot0Fatal = true then (failed .escapeSlotNotNul (table[52].setWidth 16) 0 0, c)
    else (ResponseState.success, Configuration.ofTable table c.cfgVersion)
  else (failed .invalidAlphabetTable (BitVec.ofNat 16 entries.length) 0 0, c)

/-- The same for `CONFIGURE` (R100, R101, R107). -/
def configured (p : Params) (c : Configuration) (alt : Bool) (r : Request) : ResponseState × Configuration :=
  if r.version = 5 then loaded p c (if alt then r.data.map Elem.toZscii else p.defaultAlphabet.toList)
  else (failed .unsupportedVersion (BitVec.ofNat 16 r.version) 0 0, c)

/-- The response to a request and the configuration it leaves, as a function of the parameters, the configuration and
the request; the ports take the low bits of each lane (log 3). -/
def outcome (p : Params) (c : Configuration) (r : Request) : Response × Configuration :=
  match decodeCommand r.cmd with
  | .configure alt =>
    (shown (configured p c alt r).1 (configured p c alt r).2.warnA2s0 [], (configured p c alt r).2)
  | .encZ => ((Reference.encZ c.sc (r.data.map (zsciiPort p.zsciiInW))).response c.warnA2s0 Elem.ofZchar, c)
  | .decZ => ((zdecode c.alpha .strict (r.data.map Elem.toZchar)).response c.warnA2s0 Elem.ofZscii, c)
  | .pack => ((Result.ok (packZ (r.data.map Elem.toZchar))).response c.warnA2s0 Elem.ofByte, c)
  | .unpack => ((unpackZ (r.data.map Elem.toByte)).response c.warnA2s0 Elem.ofZchar, c)
  | .encodeZ =>
    ((Reference.encodeZ c.sc (r.data.map (zsciiPort p.zsciiInW))).response c.warnA2s0 Elem.ofByte, c)
  | .decodeZ => ((Reference.decodeZ c.alpha (r.data.map Elem.toByte)).response c.warnA2s0 Elem.ofZscii, c)
  | _ => (shown (failed .reservedOperation (r.cmd.setWidth 16) 0 0) c.warnA2s0 [], c)

/-! ### `CONFIGURE` as a function of what it reads -/

theorem loadAlphabet_eq_loaded (entries : List Zscii) (s : State) :
    loadAlphabet entries s =
      giveResponse (loaded s.params s.config entries).1 []
        { s with config := (loaded s.params s.config entries).2 } := by
  unfold loaded
  split
  next h =>
    have hload : loadAlphabet entries s = loadTable ⟨entries.toArray, h⟩ s := loadAlphabet_table ⟨entries.toArray, h⟩ s
    dsimp only
    split
    next hfail => rw [hload, loadTable_refuses hfail.1 hfail.2]; rfl
    next hpass =>
      rw [hload, loadTable_accepts]
      rw [escapeSlotWarning_eq_decide, decide_eq_false_iff_not, ← Bool.not_eq_true]
      exact not_and_or.mp hpass
  next h => rw [loadAlphabet_length s (by simpa using h)]; rfl

theorem execConfigure_eq_configured (alt : Bool) (s : State) :
    execConfigure alt s =
      .next (giveResponse (configured s.params s.config alt s.request).1 []
        { s with config := (configured s.params s.config alt s.request).2 }) := by
  unfold configured
  split
  next hver => rw [execConfigure_accepts alt hver, loadAlphabet_eq_loaded]
  next hver => rw [execConfigure_refuses alt hver]; rfl

/-! ### From the acceptance to the response -/

/-- What an idle block's first step gets for the request. -/
theorem step_post {s : State} (h : Ready s) (r : Request) :
    step (s.post r) = exec (decodeCommand r.cmd) (acceptRequest r [] s) :=
  step_accept (s := s.post r) h.1 (by simp [h.2])

/-- A run to the end of the operation is what serving the request gives. -/
theorem serve_of_runs {s u t : State} {r : Request} {n : Nat} {p : Response} (h : Ready s)
    (hexec : exec (decodeCommand r.cmd) (acceptRequest r [] s) = .next u) (hrun : Runs n u t)
    (hn : n + 1 ≤ stepBound r.data.length) {c : Configuration}
    (hend : Ended { acceptRequest r [] s with config := c } t p) : serve r s = .next t :=
  Runs.pad (Runs.succ ((step_post h r).trans hexec) hrun) ⟨hend.engine, hend.requests⟩ hn

/-- The request `r` is served from `s` with the response and the configuration of `o`. -/
def Served (r : Request) (s : State) (o : Response × Configuration) : Prop :=
  ∃ t, serve r s = .next t ∧ Ended { acceptRequest r [] s with config := o.2 } t o.1

/-- A command that runs a stage. -/
theorem served_of_responds {α : Type} {lane : α → Elem} {res : Result α} {s u : State} {r : Request} {n : Nat}
    (h : Ready s) (hexec : exec (decodeCommand r.cmd) (acceptRequest r [] s) = .next u)
    (hf : SameFrame (acceptRequest r [] s) u) (hresp : Responds n u lane res) (hn : n + 1 ≤ stepBound r.data.length) :
    Served r s (res.response s.config.warnA2s0 lane, s.config) := by
  obtain ⟨k, hk, t, hrun, hend⟩ := hresp
  rw [hf.config] at hend
  have hend := ended_of_sameFrame hf hend
  exact ⟨t, serve_of_runs h hexec hrun (by omega) hend, hend⟩

/-- A command that responds at once. -/
theorem served_of_giveResponse {s : State} {r : Request} {rs : ResponseState} {c : Configuration} (h : Ready s)
    (hexec : exec (decodeCommand r.cmd) (acceptRequest r [] s) =
      .next (giveResponse rs [] { acceptRequest r [] s with config := c })) :
    Served r s (shown rs c.warnA2s0 [], c) := by
  have hend := giveResponse_ended rs [] { acceptRequest r [] s with config := c }
  exact ⟨_, serve_of_runs h hexec (Runs.zero _) (by simp [stepBound]) hend, hend⟩

/-! ### The first states of the stages -/

theorem map_toZchar_map_ofZchar (zs : List Zchar) : (zs.map Elem.ofZchar).map Elem.toZchar = zs := by
  rw [List.map_map, show Elem.toZchar ∘ Elem.ofZchar = id from funext toZchar_ofZchar, List.map_id]

theorem startDecoder_at (m : EndMode) (input : List Elem) (s : State) :
    DecoderAt m 0 0 0 (input.map Elem.toZchar) [] (startDecoder m input s) :=
  ⟨rfl, rfl, rfl, rfl, (Nat.zero_add _).trans (List.length_map _), rfl, rfl⟩

theorem startPacker_at (input : List Elem) (s : State) :
    PackerAt [] (input.map Elem.toZchar) [] (startPacker input s) :=
  ⟨rfl, rfl, by simp, (Nat.zero_add _).trans (List.length_map _), rfl, rfl⟩

theorem startDecoder_responds (m : EndMode) (input : List Elem) (s : State) :
    Responds (input.length + 1) (startDecoder m input s) Elem.ofZscii
      (zdecode s.config.alpha m (input.map Elem.toZchar)) := by
  have h := decoder_responds rfl (startDecoder_at m input s) (by decide)
  rwa [List.length_map, Result.after_nil] at h

theorem startPacker_responds (input : List Elem) (s : State) :
    Responds (input.length + 1) (startPacker input s) Elem.ofByte (.ok (packZ (input.map Elem.toZchar))) := by
  have h := packer_responds (startPacker_at input s)
  rwa [List.length_map, List.nil_append] at h

/-! ### The operations that begin with a stage of their own elements -/

section Served
variable {α : Type} {lane : α → Elem} {second : List Zchar → Result α} {b : Bool} {m : Nat} {s : State} {r : Request}

/-- An operation whose first stage is the encoder, with `second` for what follows it. -/
theorem served_encoder (h : Ready s)
    (hexec : exec (decodeCommand r.cmd) (acceptRequest r [] s) = .next (startEncoder b r.data (acceptRequest r [] s)))
    (hm : m ≤ 4 * r.data.length + 2)
    (hnext : ∀ t out, out.length ≤ 4 * r.data.length → t.config = s.config → t.engine = .encoder b →
      t.work.input.length ≤ t.work.idx → t.work.out = out.map Elem.ofZchar → Responds m t lane (second out)) :
    Served r s
      (((Reference.encZ s.config.sc (r.data.map (zsciiPort s.params.zsciiInW))).andThen second).response
        s.config.warnA2s0 lane, s.config) := by
  rw [encZ_eq_encZFrom]
  have hstage := encoder_consumes (b := b) (s := startEncoder b r.data (acceptRequest r [] s)) rfl rfl
  refine served_of_responds h hexec ⟨rfl, rfl, rfl, rfl, rfl⟩
    (hstage.andThen rfl fun t out hout hf hen hend hmade => ?_) (n := r.data.length + m) (by unfold stepBound; omega)
  have hlen := length_encZFrom_le hout
  rw [List.length_map] at hlen
  exact hnext t out hlen hf.config hen hend hmade

/-- An operation whose first stage is the unpacker, with `second` for what follows it. -/
theorem served_unpacker (h : Ready s)
    (hexec : exec (decodeCommand r.cmd) (acceptRequest r [] s) =
      .next (startUnpacker b r.data (acceptRequest r [] s)))
    (hm : m ≤ 4 * r.data.length + 2)
    (hnext : ∀ t out, out.length ≤ 3 * r.data.length → t.config = s.config → t.engine = .unpacker b →
      t.work.input.length ≤ t.work.idx → t.work.out = out.map Elem.ofZchar → Responds m t lane (second out)) :
    Served r s
      (((unpackZ (r.data.map Elem.toByte)).andThen second).response s.config.warnA2s0 lane, s.config) := by
  rw [unpackZ, List.length_map]
  by_cases hodd : r.data.length % 2 = 1
  · rw [if_pos hodd]
    exact served_of_giveResponse h (hexec.trans (by rw [startUnpacker_odd _ _ hodd]; rfl))
  · have heven : r.data.length % 2 = 0 := by omega
    rw [if_neg hodd]
    rw [startUnpacker_even _ _ heven] at hexec
    have hstage := unpacker_consumes (b := b) r.data (s := startUnpacker b r.data (acceptRequest r [] s))
      (by rw [startUnpacker_even _ _ heven]) (by rw [startUnpacker_even _ _ heven]; rfl) heven
    rw [startUnpacker_even _ _ heven] at hstage
    refine served_of_responds h hexec ⟨rfl, rfl, rfl, rfl, rfl⟩
      (hstage.andThen rfl fun t out hout hf hen hend hmade => ?_) (n := r.data.length + m) (by unfold stepBound; omega)
    have hlen := length_unpackFrom_le _ hout
    rw [List.length_map] at hlen
    exact hnext t out hlen hf.config hen hend hmade

/-- A stage at its end that is the whole operation. -/
theorem responds_of_finish {t : State} {out : List Zchar} (hen : t.engine = .encoder false ∨ t.engine = .unpacker false)
    (hend : t.work.input.length ≤ t.work.idx) (hmade : t.work.out = out.map Elem.ofZchar) :
    Responds 1 t Elem.ofZchar (.ok out) := by
  have hstep : step t = .next (finishStage t) := step_finish (by rcases hen with hen | hen <;> simp [hen]) hend
  have hfin : finishStage t = respondOk t := by rcases hen with hen | hen <;> rw [finishStage, hen]
  exact responds_ok (hfin ▸ hstep) (SameFrame.refl t) hmade

/-- The encoder's end in `ENCODE_Z`: the packer runs on what it made (44_composed.md R210). -/
theorem responds_of_encoder_packer {t : State} {out : List Zchar} (hen : t.engine = .encoder true)
    (hend : t.work.input.length ≤ t.work.idx) (hmade : t.work.out = out.map Elem.ofZchar) :
    Responds (out.length + 2) t Elem.ofByte (.ok (packZ out)) := by
  have hstep : step t = .next (startPacker t.work.out t) :=
    (step_finish (by simp [hen]) hend).trans (by rw [finishStage, hen])
  have hpack := startPacker_responds t.work.out t
  rw [hmade, List.length_map, map_toZchar_map_ofZchar] at hpack
  rw [hmade] at hstep
  exact .of_step hstep ⟨rfl, rfl, rfl, rfl, rfl⟩ hpack

/-- The unpacker's end in `DECODE_Z`: the decoder runs on what it made (44_composed.md R215). -/
theorem responds_of_unpacker_decoder {t : State} {out : List Zchar} (hen : t.engine = .unpacker true)
    (hend : t.work.input.length ≤ t.work.idx) (hmade : t.work.out = out.map Elem.ofZchar) :
    Responds (out.length + 2) t Elem.ofZscii (zdecode t.config.alpha .lenient out) := by
  have hstep : step t = .next (startDecoder .lenient t.work.out t) :=
    (step_finish (by simp [hen]) hend).trans (by rw [finishStage, hen])
  have hdecode := startDecoder_responds .lenient t.work.out t
  rw [hmade, List.length_map, map_toZchar_map_ofZchar] at hdecode
  rw [hmade] at hstep
  exact .of_step hstep ⟨rfl, rfl, rfl, rfl, rfl⟩ hdecode

/-- Every request is served, with the outcome. -/
theorem served_outcome (h : Ready s) (r : Request) : Served r s (outcome s.params s.config r) := by
  unfold outcome
  rcases decodeCommand_cases r.cmd with ⟨alt, hcmd⟩ | hcmd | hcmd | hcmd | hcmd | hcmd | hcmd | hcmd
  all_goals rw [hcmd]
  · exact served_of_giveResponse h (by rw [hcmd]; exact execConfigure_eq_configured alt _)
  · have hserved := served_encoder h (second := .ok) (by rw [hcmd]; rfl) (by omega)
      fun t out _ _ hen hend hmade => responds_of_finish (.inl hen) hend hmade
    rwa [Result.andThen_respond] at hserved
  · have hexec : exec (decodeCommand r.cmd) (acceptRequest r [] s) =
        .next (startDecoder .strict r.data (acceptRequest r [] s)) := by rw [hcmd]; rfl
    exact served_of_responds h hexec ⟨rfl, rfl, rfl, rfl, rfl⟩ (startDecoder_responds .strict r.data _)
      (by unfold stepBound; omega)
  · have hexec : exec (decodeCommand r.cmd) (acceptRequest r [] s) =
        .next (startPacker r.data (acceptRequest r [] s)) := by rw [hcmd]; rfl
    exact served_of_responds h hexec ⟨rfl, rfl, rfl, rfl, rfl⟩ (startPacker_responds r.data _)
      (by unfold stepBound; omega)
  · have hserved := served_unpacker h (second := .ok) (by rw [hcmd]; rfl) (by omega)
      fun t out _ _ hen hend hmade => responds_of_finish (.inr hen) hend hmade
    rwa [Result.andThen_respond] at hserved
  · exact served_encoder h (by rw [hcmd]; rfl) le_rfl
      fun t out hlen _ hen hend hmade => (responds_of_encoder_packer hen hend hmade).mono (by omega)
  · refine served_unpacker h (by rw [hcmd]; rfl) le_rfl fun t out hlen hc hen hend hmade => ?_
    exact hc ▸ (responds_of_unpacker_decoder hen hend hmade).mono (by omega)
  · exact served_of_giveResponse h (by rw [hcmd]; rfl)

end Served

end Sys2Proof

/-! What serving a request gives, as the statements have it (20_memory.md R63; 70_reset_and_hazards.md R272). -/

namespace Sys2Proof

open Machine Reference Safety Claims

/-! ### The machine's runs and the reference functions -/

/-- A request whose outcome keeps the configuration is answered with the outcome's response. -/
theorem answers_of_outcome {s : State} {r : Request} {p : Response} (h : Ready s)
    (ho : outcome s.params s.config r = (p, s.config)) : Answers s r p := by
  obtain ⟨t, hserve, hend⟩ := served_outcome h r
  rw [ho] at hend
  exact ⟨t, hserve, ⟨hend.engine, hend.requests⟩, hend.responses, hend.response, hend.config, hend.params⟩

theorem map_zsciiPort_map_toNat {width : Nat} (data : List (ZsciiIn width)) :
    (data.map BitVec.toNat).map (zsciiPort width) = data.map BitVec.toNat := by simp

theorem map_toByte_map_ofByte (bytes : List Byte) : (bytes.map Elem.ofByte).map Elem.toByte = bytes := by
  rw [List.map_map, show Elem.toByte ∘ Elem.ofByte = id from funext toByte_ofByte, List.map_id]

section Outcome
variable (p : Params) (c : Configuration)

theorem outcome_encZ (data : List (ZsciiIn p.zsciiInW)) :
    outcome p c (RequestLine.encZ (data.map BitVec.toNat)).request =
      ((encZ c.sc (data.map BitVec.toNat)).response c.warnA2s0 Elem.ofZchar, c) := by
  have hcmd : decodeCommand (RequestLine.encZ (data.map BitVec.toNat)).request.cmd = .encZ :=
    (by decide : decodeCommand (commandByte false 1) = .encZ)
  rw [outcome, hcmd]
  dsimp only [RequestLine.request]
  rw [map_zsciiPort_map_toNat]

theorem outcome_decZ (data : List Zchar) :
    outcome p c (RequestLine.decZ data).request =
      ((zdecode c.alpha .strict data).response c.warnA2s0 Elem.ofZscii, c) := by
  have hcmd : decodeCommand (RequestLine.decZ data).request.cmd = .decZ :=
    (by decide : decodeCommand (commandByte false 2) = .decZ)
  rw [outcome, hcmd]
  dsimp only [RequestLine.request]
  rw [map_toZchar_map_ofZchar]

theorem outcome_pack (data : List Zchar) :
    outcome p c (RequestLine.pack data).request =
      ((Result.ok (packZ data)).response c.warnA2s0 Elem.ofByte, c) := by
  have hcmd : decodeCommand (RequestLine.pack data).request.cmd = .pack :=
    (by decide : decodeCommand (commandByte false 3) = .pack)
  rw [outcome, hcmd]
  dsimp only [RequestLine.request]
  rw [map_toZchar_map_ofZchar]

theorem outcome_unpack (data : List Byte) :
    outcome p c (RequestLine.unpack data).request =
      ((unpackZ data).response c.warnA2s0 Elem.ofZchar, c) := by
  have hcmd : decodeCommand (RequestLine.unpack data).request.cmd = .unpack :=
    (by decide : decodeCommand (commandByte false 4) = .unpack)
  rw [outcome, hcmd]
  dsimp only [RequestLine.request]
  rw [map_toByte_map_ofByte]

theorem outcome_encodeZ (data : List (ZsciiIn p.zsciiInW)) :
    outcome p c (RequestLine.encodeZ (data.map BitVec.toNat)).request =
      ((Reference.encodeZ c.sc (data.map BitVec.toNat)).response c.warnA2s0 Elem.ofByte, c) := by
  have hcmd : decodeCommand (RequestLine.encodeZ (data.map BitVec.toNat)).request.cmd = .encodeZ :=
    (by decide : decodeCommand (commandByte false 5) = .encodeZ)
  rw [outcome, hcmd]
  dsimp only [RequestLine.request]
  rw [map_zsciiPort_map_toNat]

theorem outcome_decodeZ (data : List Byte) :
    outcome p c (RequestLine.decodeZ data).request =
      ((Reference.decodeZ c.alpha data).response c.warnA2s0 Elem.ofZscii, c) := by
  have hcmd : decodeCommand (RequestLine.decodeZ data).request.cmd = .decodeZ :=
    (by decide : decodeCommand (commandByte false 6) = .decodeZ)
  rw [outcome, hcmd]
  dsimp only [RequestLine.request]
  rw [map_toByte_map_ofByte]

end Outcome

/-- Settles O36: the run of the encoder's stage, and the response at its end. -/
theorem encZRunAgrees : Obligations.EncZRunAgrees := fun s data h =>
  answers_of_outcome h (outcome_encZ s.params s.config data)

/-- Settles O37: the run of the decoder's stage, by induction on the Z-chars left. -/
theorem decZRunAgrees : Obligations.DecZRunAgrees := fun s data h =>
  answers_of_outcome h (outcome_decZ s.params s.config data)

/-- Settles O38: the run of the packer's stage, a group of three at a time. -/
theorem packRunAgrees : Obligations.PackRunAgrees := fun s data h =>
  answers_of_outcome h (outcome_pack s.params s.config data)

/-- Settles O39: the length check, the run of the unpacker's stage, and the response at its end. -/
theorem unpackRunAgrees : Obligations.UnpackRunAgrees := fun s data h =>
  answers_of_outcome h (outcome_unpack s.params s.config data)

/-- Settles O40: the encoder's stage, then the packer's on its whole output. -/
theorem encodeZRunAgrees : Obligations.EncodeZRunAgrees := fun s data h =>
  answers_of_outcome h (outcome_encodeZ s.params s.config data)

/-- Settles O41: the unpacker's stage, then the decoder's on its whole output. -/
theorem decodeZRunAgrees : Obligations.DecodeZRunAgrees := fun s data h =>
  answers_of_outcome h (outcome_decodeZ s.params s.config data)

/-! ### Every request -/

/-- Settles O42: the outcome's response is given whatever the request is. -/
theorem everyRequestIsServed : Obligations.EveryRequestIsServed := by
  intro s r h
  obtain ⟨t, hserve, hend⟩ := served_outcome h r
  exact ⟨t, _, hserve, ⟨hend.engine, hend.requests⟩, hend.responses, hend.response, hend.request, hend.params⟩

/-! ### What the outcome depends on -/

theorem configured_congr {p q : Params} (hfatal : p.a2Slot0Fatal = q.a2Slot0Fatal)
    (hdefault : p.defaultAlphabet = q.defaultAlphabet) (c : Configuration) (alt : Bool) (r : Request) :
    configured p c alt r = configured q c alt r := by
  simp only [configured, loaded, hfatal, hdefault]

/-- Ports of the same width, or of widths that all elements fit, give the same elements. -/
theorem map_zsciiPort_congr {m n : Nat} {data : List Elem}
    (h : m = n ∨ ∀ e ∈ data, e < 2 ^ m ∧ e < 2 ^ n) : data.map (zsciiPort m) = data.map (zsciiPort n) := by
  rcases h with rfl | hfits
  · rfl
  · refine List.map_congr_left fun e he => ?_
    rw [zsciiPort_fits (hfits e he).1, zsciiPort_fits (hfits e he).2]

theorem outcome_congr {p q : Params} (hfatal : p.a2Slot0Fatal = q.a2Slot0Fatal)
    (hdefault : p.defaultAlphabet = q.defaultAlphabet) (c : Configuration) {r : Request}
    (hport : r.data.map (zsciiPort p.zsciiInW) = r.data.map (zsciiPort q.zsciiInW)) :
    outcome p c r = outcome q c r := by
  simp only [outcome, configured_congr hfatal hdefault, hport]

/-- Settles O56: the outcome is a function of the configuration, the request and those parameters. -/
theorem responseDependsOnConfigurationOnly : Obligations.ResponseDependsOnConfigurationOnly := by
  intro s₁ s₂ r h₁ h₂ hconfig hfatal hdefault hwidth
  obtain ⟨t₁, hserve₁, hend₁⟩ := served_outcome h₁ r
  obtain ⟨t₂, hserve₂, hend₂⟩ := served_outcome h₂ r
  have hsame : outcome s₁.params s₁.config r = outcome s₂.params s₂.config r :=
    hconfig ▸ outcome_congr hfatal hdefault s₁.config (map_zsciiPort_congr hwidth)
  rw [hsame] at hend₁
  exact ⟨t₁, t₂, _, hserve₁, hserve₂, hend₁.responses, hend₂.responses, hend₁.config.trans hend₂.config.symm,
    hend₁.response.trans hend₂.response.symm⟩

/-! ### A request repeated -/

theorem ofTable_cfgVersion (table : AlphabetTable) (version : Nat) :
    (Configuration.ofTable table version).cfgVersion = version := rfl

/-- An alphabet loaded again is loaded with the same result: a configuration is replaced but for its version. -/
theorem loaded_idem (p : Params) (c : Configuration) (entries : List Zscii) :
    loaded p (loaded p c entries).2 entries = loaded p c entries := by
  by_cases hlen : entries.toArray.size = 78
  · by_cases hfail : (⟨entries.toArray, hlen⟩ : AlphabetTable)[52] ≠ 0x000 ∧ p.a2Slot0Fatal = true
    · simp only [loaded, dif_pos hlen, if_pos hfail]
    · simp only [loaded, dif_pos hlen, if_neg hfail, ofTable_cfgVersion]
  · simp only [loaded, dif_neg hlen]

theorem configured_idem (p : Params) (c : Configuration) (alt : Bool) (r : Request) :
    configured p (configured p c alt r).2 alt r = configured p c alt r := by
  unfold configured
  split
  next => exact loaded_idem _ _ _
  next => rfl

theorem outcome_idem (p : Params) (c : Configuration) (r : Request) :
    outcome p (outcome p c r).2 r = outcome p c r := by
  unfold outcome
  cases decodeCommand r.cmd with
  | configure alt => simp only [configured_idem]
  | _ => rfl

/-- Settles O57: the outcome under the configuration that the first request left is the same outcome. -/
theorem operationsAreIdempotent : Obligations.OperationsAreIdempotent := by
  intro s r h
  obtain ⟨t, hserve, hend⟩ := served_outcome h r
  obtain ⟨u, hserve', hend'⟩ := served_outcome (s := t) ⟨hend.engine, hend.requests⟩ r
  have hsame : outcome t.params t.config r = outcome s.params s.config r := by
    rw [hend.params, hend.config]
    exact outcome_idem _ _ _
  rw [hsame] at hend'
  refine ⟨t, u, _, hserve, hserve', hend.responses, ?_, hend'.config.trans hend.config.symm,
    hend'.response.trans hend.response.symm⟩
  calc
    u.responses = t.responses ++ [(outcome s.params s.config r).1] := hend'.responses
    _ = s.responses ++ [(outcome s.params s.config r).1, (outcome s.params s.config r).1] := by
      rw [hend.responses]
      simp

/-! ### The pseudo-operation `DEFAULTS` -/

theorem loaded_default (p : Params) (c : Configuration) :
    loaded p c p.defaultAlphabet.toList =
      (ResponseState.success, Configuration.ofTable p.defaultAlphabet c.cfgVersion) := by
  have hlen : p.defaultAlphabet.toList.toArray.size = 78 := by simp
  rw [loaded, dif_pos hlen]
  exact if_neg fun hfail => hfail.1 p.escSlot_nul

theorem outcome_defaults (p : Params) (c : Configuration) :
    outcome p c defaultsLine.request =
      (shown ResponseState.success false [], Configuration.ofTable p.defaultAlphabet c.cfgVersion) := by
  have hconf : configured p c false defaultsLine.request = _ := loaded_default p c
  show (shown (configured p c false defaultsLine.request).1 (configured p c false defaultsLine.request).2.warnA2s0 [],
    (configured p c false defaultsLine.request).2) = _
  rw [hconf]
  simp [Configuration.ofTable]

/-- Settles O60: the default table passes both checks and brings back the configuration made of it. -/
theorem defaultConfigureIsReset : Obligations.DefaultConfigureIsReset := by
  intro s h hversion
  obtain ⟨t, hserve, hend⟩ := served_outcome h defaultsLine.request
  rw [outcome_defaults, hversion] at hend
  exact ⟨t, hserve, ⟨hend.engine, hend.requests⟩, hend.response, hend.config⟩

end Sys2Proof

/-! Encoding and decoding as functions of whole sequences: what one makes, the other turns back (41_encoder.md R138;
42_decoder.md R169; 43_packer.md R185, R197; 44_composed.md R220, R221). -/

namespace Sys2Proof

open Machine Reference Safety Claims

/-! ### The encoder -/

/-- `ENC_Z` succeeds if and only if no element is out of range. -/
theorem encZ_eq_ok_iff {sc : ShortcutMap} {data : List Nat} {out : List Zchar} :
    encZ sc data = .ok out ↔ (∀ c ∈ data, c < 1024) ∧ data.flatMap (zcharsOf sc) = out := by
  unfold encZ
  split
  next i hi =>
    have hfound : (data.findIdx? (fun c => 1024 ≤ c)).isSome = true := by rw [hi]; rfl
    obtain ⟨c, hc, hrange⟩ := List.any_eq_true.mp (List.findIdx?_isSome.symm.trans hfound)
    refine ⟨fun h => (by cases h), fun ⟨hall, _⟩ => absurd (hall c hc) ?_⟩
    simpa using hrange
  next hnone =>
    have hall : ∀ c ∈ data, c < 1024 := by simpa using hnone
    exact ⟨fun h => ⟨hall, Result.ok.inj h⟩, fun h => congrArg _ h.2⟩

theorem exists_encZ_eq_ok_iff {sc : ShortcutMap} {data : List Nat} :
    (∃ out, encZ sc data = .ok out) ↔ ∀ c ∈ data, c < 1024 := by
  simp [encZ_eq_ok_iff]

theorem encZ_codepoints (sc : ShortcutMap) (data : List Zscii) :
    encZ sc (data.map Elem.ofZscii) = .ok ((data.map Elem.ofZscii).flatMap (zcharsOf sc)) := by
  refine encZ_eq_ok_iff.mpr ⟨fun c hc => ?_, rfl⟩
  obtain ⟨d, -, rfl⟩ := List.mem_map.mp hc
  exact ofZscii_lt d

/-- Settles O48: each element has its own Z-chars, and fails by itself. -/
theorem encodingIsConcatenative : Obligations.EncodingIsConcatenative := by
  refine fun sc a b => ⟨fun x y hx hy => ?sequence, ?failure⟩
  case sequence =>
    obtain ⟨ha, rfl⟩ := encZ_eq_ok_iff.mp hx
    obtain ⟨hb, rfl⟩ := encZ_eq_ok_iff.mp hy
    exact encZ_eq_ok_iff.mpr ⟨List.forall_mem_append.mpr ⟨ha, hb⟩, List.flatMap_append⟩
  case failure =>
    rw [exists_encZ_eq_ok_iff, exists_encZ_eq_ok_iff, exists_encZ_eq_ok_iff]
    exact List.forall_mem_append

/-! ### Decoding what the encoder made of one codepoint -/

section Decoding
variable {table : AlphabetTable} (mode : EndMode) (pos : Nat)

/-- A literal of slot `j` of alphabet `k`, in that alphabet (30_encoding.md R82, R83). -/
theorem zdecodeFrom_slot {k j : Nat} {c : Zscii} (hk : k < 3) (hj : j < 26)
    (hfirst : FirstIndex table c (26 * k + j)) (rest : List Zchar) :
    zdecodeFrom table mode (BitVec.ofNat 2 k) pos (BitVec.ofNat 5 (6 + j) :: rest) =
      (zdecodeFrom table mode 0 (pos + 1) rest).after [c] := by
  obtain ⟨hne, hat, -⟩ := hfirst
  have halph : (BitVec.ofNat 2 k).toNat = k := Nat.mod_eq_of_lt (by omega)
  have hz : (BitVec.ofNat 5 (6 + j)).toNat = 6 + j := Nat.mod_eq_of_lt (by omega)
  have hidx : literalIndex (BitVec.ofNat 2 k) (BitVec.ofNat 5 (6 + j)) = 26 * k + j := by
    rw [literalIndex, halph, hz, Nat.add_sub_cancel_left, alphaSlots]
  have hesc : ¬(BitVec.ofNat 5 (6 + j) = 6 ∧ BitVec.ofNat 2 k = 2) := by
    rintro ⟨h6, h2⟩
    have h6 : 6 + j = 6 := hz.symm.trans (congrArg BitVec.toNat h6)
    have h2 : k = 2 := halph.symm.trans (congrArg BitVec.toNat h2)
    unfold escSlot at hne
    omega
  obtain ⟨hi, hentry⟩ := alphaEntry_eq_some_iff.mp hat
  rw [zdecodeFrom_literal table mode pos (BitVec.le_def.mpr (by rw [hz]; simp)) hesc (by rw [hidx]; exact hi)]
  simp only [hidx, hentry]

/-- A derived shortcut decodes to its codepoint (40_configure.md R115). -/
theorem zdecodeFrom_shortcut {c : Zscii} {sh : Shortcut} (h : scGet (deriveShortcuts table) c = some sh)
    (rest : List Zchar) :
    zdecodeFrom table mode 0 pos (Shortcut.zchars sh ++ rest) =
      (zdecodeFrom table mode 0 (pos + (Shortcut.zchars sh).length) rest).after [c] := by
  by_cases hspace : c = zsciiSpace
  · subst hspace
    obtain rfl : sh = .one 0 := Option.some.inj (h.symm.trans (spaceShortcutIsFixed table))
    exact zdecodeFrom_space table mode 0 pos rest
  · obtain ⟨k, hk, j, hj, hfirst, rfl⟩ := exists_slot_of_scGet h hspace
    obtain rfl | rfl | rfl : k = 0 ∨ k = 1 ∨ k = 2 := by omega
    · exact zdecodeFrom_slot mode pos hk hj hfirst rest
    · exact (zdecodeFrom_shiftA1 table mode 0 pos _).trans (zdecodeFrom_slot mode (pos + 1) hk hj hfirst rest)
    · exact (zdecodeFrom_shiftA2 table mode 0 pos _).trans (zdecodeFrom_slot mode (pos + 1) hk hj hfirst rest)

theorem zdecodeFrom_zcharsOf (c : Zscii) (rest : List Zchar) :
    zdecodeFrom table mode 0 pos (zcharsOf (deriveShortcuts table) (Elem.ofZscii c) ++ rest) =
      (zdecodeFrom table mode 0 (pos + (zcharsOf (deriveShortcuts table) (Elem.ofZscii c)).length) rest).after [c] := by
  unfold zcharsOf
  rw [zsciiOfInput_ofZscii]
  by_cases hspace : Elem.ofZscii c = 0x0020
  · obtain rfl : c = 0x020 := BitVec.eq_of_toNat_eq hspace
    rw [if_pos hspace]
    exact zdecodeFrom_space table mode 0 pos rest
  · rw [if_neg hspace]
    cases hsc : scGet (deriveShortcuts table) c with
    | some sh => exact zdecodeFrom_shortcut mode pos hsc rest
    | none =>
      calc
        zdecodeFrom table mode 0 pos (5 :: 6 :: escapeHigh c :: escapeLow c :: rest)
        _ = zdecodeFrom table mode 2 (pos + 1) (6 :: escapeHigh c :: escapeLow c :: rest) := zdecodeFrom_shiftA2 ..
        _ = (zdecodeFrom table mode 0 (pos + 4) rest).after [escapeCodepoint (escapeHigh c) (escapeLow c)] :=
          zdecodeFrom_escape ..
        _ = (zdecodeFrom table mode 0 (pos + 4) rest).after [c] := by rw [escapeCodepoint_fields]

/-- Each codepoint's Z-chars leave the decoder as they found it, in A0, so what follows is decoded by itself. -/
theorem zdecodeFrom_encoded (data : List Zscii) (rest : List Zchar) :
    zdecodeFrom table mode 0 pos
        ((data.map Elem.ofZscii).flatMap (zcharsOf (deriveShortcuts table)) ++ rest) =
      (zdecodeFrom table mode 0
        (pos + ((data.map Elem.ofZscii).flatMap (zcharsOf (deriveShortcuts table))).length) rest).after data := by
  induction data generalizing pos with
  | nil => exact (Result.after_nil _).symm
  | cons c data ih =>
    rw [List.map_cons, List.flatMap_cons, List.append_assoc, zdecodeFrom_zcharsOf, ih, Result.after_after,
      List.length_append, Nat.add_assoc]
    rfl

theorem zdecode_encoded (data : List Zscii) :
    zdecode table mode ((data.map Elem.ofZscii).flatMap (zcharsOf (deriveShortcuts table))) = .ok data := by
  have h := zdecodeFrom_encoded (table := table) mode 0 data []
  rwa [List.append_nil, zdecodeFrom_nil_ok (.inl rfl), Result.after_ok, List.append_nil] at h

end Decoding

/-! ### Padding -/

/-- The Z-chars 5 that fill the last word of a string of `n` Z-chars (43_packer.md R182). -/
def padding (n : Nat) : List Zchar := List.replicate ((3 - n % 3) % 3) 5

theorem zdecodeFrom_padding_lenient (table : AlphabetTable) (alph : BitVec 2) (pos n : Nat) :
    zdecodeFrom table .lenient alph pos (List.replicate n 5) = .ok [] := by
  induction n generalizing alph pos with
  | zero => exact zdecodeFrom_nil_ok (.inr rfl)
  | succ n ih => rw [List.replicate_succ, zdecodeFrom_shiftA2, ih]

theorem zdecodeFrom_padding_strict (table : AlphabetTable) {alph : BitVec 2} (pos : Nat) {n : Nat}
    (h : alph ≠ 0 ∨ n ≠ 0) :
    zdecodeFrom table .strict alph pos (List.replicate n 5) = .err .truncatedInput 0 0 (pos + n) := by
  induction n generalizing alph pos with
  | zero => exact zdecodeFrom_nil_strict table pos (h.resolve_right (· rfl))
  | succ n ih =>
    rw [List.replicate_succ, zdecodeFrom_shiftA2, ih (pos + 1) (.inl (by decide)), Nat.add_assoc, Nat.add_comm 1 n]

/-! ### The packer and the unpacker -/

theorem unpackFrom_wordBytes (final : Bool) (a b c : Zchar) (pos : Nat) (rest : List Byte) :
    unpackFrom false pos (wordBytes final a b c ++ rest) = (unpackFrom final (pos + 2) rest).after [a, b, c] := by
  have h := unpackFrom_word pos rest (wordOfBytes_fields (packWord final a b c)).symm
  rwa [wordMarker_packWord, wordZ0_packWord, wordZ1_packWord, wordZ2_packWord] at h

/-- The words of a packed string give the Z-chars and the padding, and leave `TERM_SEEN` set. -/
theorem unpackFrom_packZ {zs : List Zchar} (h : zs ≠ []) (pos : Nat) (rest : List Byte) :
    unpackFrom false pos (packZ zs ++ rest) =
      (unpackFrom true (pos + (packZ zs).length) rest).after (zs ++ padding zs.length) := by
  induction zs using packZ.induct generalizing pos with
  | case1 => exact absurd rfl h
  | case2 a => exact unpackFrom_wordBytes true a 5 5 pos rest
  | case3 a b => exact unpackFrom_wordBytes true a b 5 pos rest
  | case4 a b c =>
    have hpad : padding [a, b, c].length = [] := (by decide : padding 3 = [])
    rw [packZ, hpad]
    exact unpackFrom_wordBytes true a b c pos rest
  | case5 a b c d zs ih =>
    have hpad : padding (a :: b :: c :: d :: zs).length = padding (d :: zs).length := by
      simp only [padding, List.length_cons]
      rw [show zs.length + 1 + 1 + 1 + 1 = zs.length + 1 + 3 from rfl, Nat.add_mod_right]
    rw [packZ, List.append_assoc, unpackFrom_wordBytes, ih (by simp), Result.after_after, hpad, List.length_append,
      Nat.add_assoc]
    rfl

theorem length_packZ (zs : List Zchar) : (packZ zs).length = 2 * ((zs.length + 2) / 3) := by
  induction zs using packZ.induct with
  | case1 | case2 | case3 | case4 => simp [packZ, wordBytes]
  | case5 a b c d zs ih =>
    rw [packZ, List.length_append, ih]
    simp only [wordBytes, List.length_cons, List.length_nil]
    omega

theorem unpackZ_of_even {data : List Byte} (h : data.length % 2 = 0) : unpackZ data = unpackFrom false 0 data := by
  rw [unpackZ, if_neg (by omega)]

/-- Unpacking what `PACK` makes (43_packer.md R197). -/
theorem unpackZ_packZ (zs : List Zchar) : unpackZ (packZ zs) = .ok (zs ++ padding zs.length) := by
  rw [unpackZ_of_even (by rw [length_packZ]; omega)]
  by_cases h : zs = []
  · subst h
    rfl
  · have hunpack := unpackFrom_packZ h 0 []
    rw [List.append_nil] at hunpack
    rw [hunpack, show unpackFrom true (0 + (packZ zs).length) [] = .ok [] from rfl, Result.after_ok, List.append_nil]

/-- A word after the terminator, of two packed strings one after the other (70_reset_and_hazards.md R267). -/
theorem unpackZ_packZ_append {a b : List Zchar} (ha : a ≠ []) (hb : b ≠ []) :
    unpackZ (packZ a ++ packZ b) = .err .trailingDataAfterTerminator 0 0 (packZ a).length := by
  have hlen : (packZ a ++ packZ b).length % 2 = 0 := by rw [List.length_append, length_packZ, length_packZ]; omega
  rw [unpackZ_of_even hlen, unpackFrom_packZ ha, Nat.zero_add]
  have hwords := length_packZ b
  match hbytes : packZ b with
  | high :: low :: rest => rw [unpackFrom_trailing, Result.after_err]
  | [] | [_] =>
    have hpos := List.length_pos_iff.mpr hb
    rw [hbytes] at hwords
    simp only [List.length_cons, List.length_nil] at hwords
    omega

/-! ### Packed strings -/

/-- The marker stands on the last word and on no other (30_encoding.md R77). -/
def MarkedLast (words : List PackedWord) : Prop :=
  (∀ n ∈ words.dropLast, wordMarker n = false) ∧ ∀ n ∈ words.getLast?, wordMarker n = true

theorem markedLast_singleton {n : PackedWord} (h : wordMarker n = true) : MarkedLast [n] := by
  simp [MarkedLast, h]

theorem MarkedLast.cons {n : PackedWord} {words : List PackedWord} (hne : words ≠ []) (hn : wordMarker n = false)
    (h : MarkedLast words) : MarkedLast (n :: words) := by
  obtain ⟨hinit, hlast⟩ := h
  refine ⟨?_, ?_⟩
  · rw [List.dropLast_cons_of_ne_nil hne]
    exact List.forall_mem_cons.mpr ⟨hn, hinit⟩
  · rwa [List.getLast?_cons_of_ne_nil hne]

theorem wordsOf_wordBytes (final : Bool) (a b c : Zchar) (rest : List Byte) :
    wordsOf (wordBytes final a b c ++ rest) = packWord final a b c :: wordsOf rest :=
  congrArg (· :: wordsOf rest) (wordOfBytes_fields _)

theorem wordsOf_packZ_markedLast {zs : List Zchar} (h : zs ≠ []) :
    wordsOf (packZ zs) ≠ [] ∧ MarkedLast (wordsOf (packZ zs)) := by
  have final (a b c : Zchar) :
      wordsOf (wordBytes true a b c) ≠ [] ∧ MarkedLast (wordsOf (wordBytes true a b c)) := by
    have hwords := wordsOf_wordBytes true a b c []
    rw [List.append_nil] at hwords
    rw [hwords]
    exact ⟨by simp, markedLast_singleton (wordMarker_packWord ..)⟩
  induction zs using packZ.induct with
  | case1 => exact absurd rfl h
  | case2 a => exact final a 5 5
  | case3 a b => exact final a b 5
  | case4 a b c => exact final a b c
  | case5 a b c d zs ih =>
    obtain ⟨hne, hmarked⟩ := ih (by simp)
    rw [packZ, wordsOf_wordBytes]
    exact ⟨by simp, hmarked.cons hne (wordMarker_packWord ..)⟩

/-- Settles O46: each group of three, the last one padded, is a word, and only the last is made with the marker. -/
theorem packedStringIsWellFormed : Obligations.PackedStringIsWellFormed := by
  refine fun data => ⟨length_packZ data, by rw [length_packZ]; omega, ?_⟩
  by_cases h : data = []
  · subst h
    simp [packZ, wordsOf]
  · exact (wordsOf_packZ_markedLast h).2

/-! ### The round trips of the machine -/

section Codepoints
variable {s : State} (h : Ready s)

theorem map_toNat_map_setWidth {width : Nat} (hw : 11 ≤ width) (data : List Zscii) :
    (data.map (BitVec.setWidth width)).map BitVec.toNat = data.map Elem.ofZscii := by
  rw [List.map_map]
  refine List.map_congr_left fun c _ => ?_
  exact (BitVec.toNat_setWidth ..).trans (zsciiPort_ofZscii hw c)

include h

/-- Every port presents a codepoint as it stands. -/
theorem answers_encZ_codepoints (data : List Zscii) :
    Answers s (RequestLine.encZ (data.map Elem.ofZscii)).request
      ((encZ s.config.sc (data.map Elem.ofZscii)).response s.config.warnA2s0 Elem.ofZchar) := by
  have hrun := encZRunAgrees s (data.map (BitVec.setWidth _)) h
  rwa [map_toNat_map_setWidth s.params.zsciiInW_wide] at hrun

theorem answers_encodeZ_codepoints (data : List Zscii) :
    Answers s (RequestLine.encodeZ (data.map Elem.ofZscii)).request
      ((Reference.encodeZ s.config.sc (data.map Elem.ofZscii)).response s.config.warnA2s0 Elem.ofByte) := by
  have hrun := encodeZRunAgrees s (data.map (BitVec.setWidth _)) h
  rwa [map_toNat_map_setWidth s.params.zsciiInW_wide] at hrun

end Codepoints

/-- Settles O35: a shortcut is the literal of its slot, after the shift to the slot's alphabet. -/
theorem shortcutsDecodeBack : Obligations.ShortcutsDecodeBack := by
  intro s c sh h hsc hget
  rw [hsc] at hget
  have hdecode := zdecodeFrom_shortcut .strict 0 hget []
  rw [List.append_nil, zdecodeFrom_nil_ok (.inl rfl), Result.after_ok] at hdecode
  have hrun := decZRunAgrees s (Shortcut.zchars sh) h
  rwa [zdecode, hdecode] at hrun

/-- Settles O43: the Z-chars of each codepoint decode to it and end in A0. -/
theorem zcharRoundTrip : Obligations.ZcharRoundTrip := by
  intro s data h hsc
  refine ⟨_, encZ_codepoints _ _ ▸ answers_encZ_codepoints h data, ?_, ?_⟩
  · have hrun := decZRunAgrees s ((data.map Elem.ofZscii).flatMap (zcharsOf s.config.sc)) h
    rw [hsc, zdecode_encoded] at hrun
    rwa [hsc]
  · rw [hsc]
    exact zdecode_encoded _ _

/-- Settles O45: the words come apart as they were put together. -/
theorem unpackOfPack : Obligations.UnpackOfPack := fun s data h =>
  ⟨packZ data, packRunAgrees s data h, unpackZ_packZ data ▸ unpackRunAgrees s (packZ data) h⟩

/-- Settles O44: the padding reaches the decoder as shifts, which mode LENIENT discards. -/
theorem packedRoundTrip : Obligations.PackedRoundTrip := by
  intro s data h hsc
  have hencode : Reference.encodeZ s.config.sc (data.map Elem.ofZscii) =
      .ok (packZ ((data.map Elem.ofZscii).flatMap (zcharsOf s.config.sc))) := by
    rw [Reference.encodeZ, encZ_codepoints, Result.andThen_ok]
  have hdecode : Reference.decodeZ s.config.alpha
      (packZ ((data.map Elem.ofZscii).flatMap (zcharsOf s.config.sc))) = .ok data := by
    rw [Reference.decodeZ, unpackZ_packZ, Result.andThen_ok, zdecode, hsc, zdecodeFrom_encoded, padding,
      zdecodeFrom_padding_lenient, Result.after_ok, List.append_nil]
  exact ⟨_, hencode ▸ answers_encodeZ_codepoints h data, hdecode ▸ decodeZRunAgrees s _ h⟩

/-- Settles O47: the padding reaches the decoder as shifts, and mode STRICT refuses to end in one. -/
theorem standAloneStagesRejectPadding : Obligations.StandAloneStagesRejectPadding := by
  intro s data zchars h hsc hencode hpad
  have hcount : (3 - zchars.length % 3) % 3 ≠ 0 := by omega
  have hdecode : zdecode s.config.alpha .strict (zchars ++ padding zchars.length) =
      .err .truncatedInput 0 0 (zchars ++ padding zchars.length).length := by
    obtain rfl := Result.ok.inj ((encZ_codepoints _ _).symm.trans hencode)
    rw [hsc, zdecode, zdecodeFrom_encoded, padding, zdecodeFrom_padding_strict _ _ (.inr (hsc ▸ hcount)),
      Result.after_err, Nat.zero_add, List.length_append, List.length_replicate]
  exact ⟨_, unpackZ_packZ _ ▸ unpackRunAgrees s _ h, hdecode ▸ decZRunAgrees s _ h⟩

/-- Settles O49: the first string ends in a word with the terminator, and another word follows. -/
theorem concatenatedPacksAreRefused : Obligations.ConcatenatedPacksAreRefused := fun s a b h ha hb =>
  unpackZ_packZ_append ha hb ▸ unpackRunAgrees s (packZ a ++ packZ b) h

end Sys2Proof

/-! The decoder and the encoder of instruction words (30_encoding.md): each undoes the other. -/

namespace Sys2Proof

open Machine Claims

/-! ### Words as instructions -/

@[simp] theorem unpackKey_fields (k : BitVec 17) : unpackKey (unpackKeyTermSeen k) (unpackKeyWord k) = k := by
  apply BitVec.eq_of_getLsbD_eq
  intro i hi
  rw [getLsbD_unpackKey]
  split
  next h => simp [unpackKeyWord, -BitVec.getLsbD_eq_getElem, h]
  next h =>
    obtain rfl : i = 16 := by omega
    simp [unpackKeyTermSeen, -BitVec.getLsbD_eq_getElem]

theorem toNat_zsciiOfInput {c : Nat} (h : c < 1024) : (zsciiOfInput c).toNat = c := by
  rw [zsciiOfInput, BitVec.toNat_ofNat, Nat.mod_eq_of_lt h]

theorem toNat_ne_space {c : Zscii} (h : c ≠ zsciiSpace) : c.toNat ≠ 0x0020 :=
  fun heq => h (BitVec.eq_of_toNat_eq heq)

/-- Only the encoder's classes are selected by the shortcut map; the other words select by themselves. -/
theorem selectedBy_of_not_zscii (sc : ShortcutMap) {i : Instr} (h : ∀ c, encode i ≠ .zscii c) :
    selectedBy sc i = true := by
  cases i with
  | encSc1 c z => exact absurd rfl (h c.toNat)
  | encSc2 c shift z => exact absurd rfl (h c.toNat)
  | encEsc c => exact absurd rfl (h c.toNat)
  | _ => rfl

/-! ### Decoding an encoding -/

section
variable (sc : ShortcutMap)

theorem decode_normal {alph : BitVec 2} {z : Zchar} {i : Instr} (hi : normalInstr alph z = i)
    (h : ¬(alph = 3 ∧ z = 6)) : decode sc (.key (zcharKey 0 alph z)) = .ok i :=
  hi ▸ decodeKey_normal_of_reachable h

theorem decode_unpackKey (termSeen : Bool) (n : PackedWord) :
    decode sc (.unpackKey (unpackKey termSeen n)) =
      .ok (if termSeen then .pwAfterTerm n
        else if wordMarker n then .pwFinal (wordZ0 n) (wordZ1 n) (wordZ2 n)
        else .pwMid (wordZ0 n) (wordZ1 n) (wordZ2 n)) :=
  congrArg Except.ok (decodeUnpackKey_unpackKey termSeen n)

theorem wellFormed_zcRsv {alph : BitVec 2} {z : Zchar} (h : WellFormed (.zcRsv alph z)) : z = 1 ∨ z = 2 ∨ z = 3 := by
  have hrange : ∀ z : Zchar, (1#5 ≤ z && z ≤ 3#5) = true → z = 1 ∨ z = 2 ∨ z = 3 := by decide
  exact hrange z h

theorem wellFormed_zcLit {alph : BitVec 2} {z : Zchar} (h : WellFormed (.zcLit alph z)) :
    6 ≤ z ∧ ¬(z = 6 ∧ alph = 2) ∧ ¬(alph = 3 ∧ z = 6) := by
  have hrange : ∀ (alph : BitVec 2) (z : Zchar), (6#5 ≤ z && (z != 6#5 || alph ≤ 1#2)) = true →
      6 ≤ z ∧ ¬(z = 6 ∧ alph = 2) ∧ ¬(alph = 3 ∧ z = 6) := by decide
  exact hrange alph z h

/-- Settles O2: each row's pattern gives back the fields that the encoder put into it, and the shortcut map the rest. -/
theorem decodeOfEncode : Obligations.DecodeOfEncode := by
  intro sc i hwf hsel
  cases i with
  | zcEscHi alph z => exact decodeKey_escHi alph z
  | zcEscLo alph z => exact decodeKey_escLo alph z
  | zcSpace alph => exact decode_normal sc (normalInstr_space alph) (by simp)
  | zcRsv alph z =>
    have hz := wellFormed_zcRsv hwf
    exact decode_normal sc (normalInstr_reserved alph hz) (by rcases hz with rfl | rfl | rfl <;> simp)
  | zcShiftA1 alph => exact decode_normal sc (normalInstr_shiftA1 alph) (by simp)
  | zcShiftA2 alph => exact decode_normal sc (normalInstr_shiftA2 alph) (by simp)
  | zcEscape => exact decode_normal sc normalInstr_escape (by simp)
  | zcLit alph z =>
    obtain ⟨h6, hesc, hreach⟩ := wellFormed_zcLit hwf
    exact decode_normal sc (normalInstr_literal h6 hesc) hreach
  | pwAfterTerm word => exact decode_unpackKey sc true word
  | pwMid z0 z1 z2 => exact (decode_unpackKey sc false (packWord false z0 z1 z2)).trans (by simp)
  | pwFinal z0 z1 z2 => exact (decode_unpackKey sc false (packWord true z0 z1 z2)).trans (by simp)
  | encSpace => exact congrArg Except.ok (decodeZscii_space sc)
  | encSc1 c z =>
    have hne : c ≠ zsciiSpace := by simp [WellFormed, Instr.wellFormed] at hwf; exact hwf.1
    have hget : scGet sc (zsciiOfInput c.toNat) = some (.one z) := by simpa [selectedBy] using hsel
    exact congrArg Except.ok ((decodeZscii_one c.isLt (toNat_ne_space hne) hget).trans (by simp))
  | encSc2 c shift z =>
    have hne : c ≠ zsciiSpace := by simp [WellFormed, Instr.wellFormed] at hwf; exact hwf.1
    have hget : scGet sc (zsciiOfInput c.toNat) = some (.two shift z) := by simpa [selectedBy] using hsel
    exact congrArg Except.ok ((decodeZscii_two c.isLt (toNat_ne_space hne) hget).trans (by simp))
  | encEsc c =>
    have hne : c ≠ zsciiSpace := by simpa [WellFormed, Instr.wellFormed] using hwf
    have hget : scGet sc (zsciiOfInput c.toNat) = none := by simpa [selectedBy] using hsel
    exact congrArg Except.ok ((decodeZscii_none c.isLt (toNat_ne_space hne) hget).trans (by simp))
  | encOor c =>
    have hrange : 1024 ≤ c := by simpa [WellFormed, Instr.wellFormed, inZsciiRange] using hwf
    exact congrArg Except.ok (decodeZscii_outOfRange sc hrange)
  | configure alt => cases alt <;> rfl
  | encZ | decZ | pack | unpack | encodeZ | decodeZ => rfl
  | reserved cmd => exact congrArg Except.ok ((decodeCommand_eq_reserved_iff cmd).mpr hwf)

end

/-! ### Encoding what a word decodes to -/

theorem encode_decodeKey : ∀ k : BitVec 9,
    ∀ i ∈ (decodeKey k).toOption, encode i = .key k ∧ WellFormed i := by
  decide +kernel

theorem encode_decodeUnpackKey (k : BitVec 17) :
    encode (decodeUnpackKey k) = .unpackKey k ∧ WellFormed (decodeUnpackKey k) := by
  obtain ⟨termSeen, n, rfl⟩ : ∃ termSeen n, unpackKey termSeen n = k := ⟨_, _, unpackKey_fields k⟩
  have hfields := packWord_fields n
  rw [decodeUnpackKey_unpackKey]
  cases termSeen with
  | true => exact ⟨rfl, rfl⟩
  | false =>
    cases hmarker : wordMarker n with
    | true => exact ⟨congrArg (fun word => CodeWord.unpackKey (unpackKey false word)) (hmarker ▸ hfields), rfl⟩
    | false => exact ⟨congrArg (fun word => CodeWord.unpackKey (unpackKey false word)) (hmarker ▸ hfields), rfl⟩

theorem encode_decodeCommand : ∀ b : BitVec 8,
    encode (decodeCommand b) = .cmd b ∧ WellFormed (decodeCommand b) := by
  decide +kernel

/-- The classes of an encoder input element, with what selects each (30_encoding.md R78). -/
theorem decodeZscii_cases (sc : ShortcutMap) (c : Nat) :
    (c = 0x0020 ∧ decodeZscii sc c = .encSpace) ∨ (1024 ≤ c ∧ decodeZscii sc c = .encOor c) ∨
      (c < 1024 ∧ c ≠ 0x0020 ∧
        ((∃ z, scGet sc (zsciiOfInput c) = some (.one z) ∧ decodeZscii sc c = .encSc1 (zsciiOfInput c) z) ∨
          (∃ shift z, scGet sc (zsciiOfInput c) = some (.two shift z) ∧
            decodeZscii sc c = .encSc2 (zsciiOfInput c) shift z) ∨
          (scGet sc (zsciiOfInput c) = none ∧ decodeZscii sc c = .encEsc (zsciiOfInput c)))) := by
  by_cases hspace : c = 0x0020
  · exact .inl ⟨hspace, hspace ▸ decodeZscii_space sc⟩
  · by_cases hrange : c < 1024
    · refine .inr (.inr ⟨hrange, hspace, ?_⟩)
      cases hget : scGet sc (zsciiOfInput c) with
      | none => exact .inr (.inr ⟨rfl, decodeZscii_none hrange hspace hget⟩)
      | some sh =>
        cases sh with
        | one z => exact .inl ⟨z, rfl, decodeZscii_one hrange hspace hget⟩
        | two shift z => exact .inr (.inl ⟨shift, z, rfl, decodeZscii_two hrange hspace hget⟩)
    · exact .inr (.inl ⟨Nat.le_of_not_lt hrange, decodeZscii_outOfRange sc (Nat.le_of_not_lt hrange)⟩)

theorem encode_decodeZscii (sc : ShortcutMap) (c : Nat) : encode (decodeZscii sc c) = .zscii c := by
  rcases decodeZscii_cases sc c with
    ⟨rfl, hi⟩ | ⟨-, hi⟩ | ⟨hc, -, ⟨z, -, hi⟩ | ⟨shift, z, -, hi⟩ | ⟨-, hi⟩⟩ <;> rw [hi]
  · rfl
  · rfl
  all_goals exact congrArg CodeWord.zscii (toNat_zsciiOfInput hc)

/-- Under any shortcut map, a word that decodes is the encoding of what it decodes to. -/
theorem encode_of_decode {sc : ShortcutMap} {w : CodeWord} {i : Instr} (h : decode sc w = .ok i) : encode i = w := by
  cases w with
  | key k => exact (encode_decodeKey k i (congrArg Except.toOption h)).1
  | unpackKey k => exact Except.ok.inj h ▸ (encode_decodeUnpackKey k).1
  | zscii c => exact Except.ok.inj h ▸ encode_decodeZscii sc c
  | cmd b => exact Except.ok.inj h ▸ (encode_decodeCommand b).1

section Derived
variable {table : AlphabetTable} {c : Zscii}

/-- The operands of a derived shortcut are ones the rows of the encoder can hold (30_encoding.md R83). -/
theorem wellFormed_encSc1 {z : Zchar} (h : scGet (deriveShortcuts table) c = some (.one z)) (hne : c ≠ zsciiSpace) :
    WellFormed (.encSc1 c z) := by
  obtain ⟨k, -, j, hj, -, hsh⟩ := exists_slot_of_scGet h hne
  obtain ⟨-, hz⟩ := one_eq_shortcutOfSlot hj hsh
  have h6 : 6#5 ≤ z := BitVec.le_def.mpr (by rw [hz]; exact Nat.le_add_right 6 j)
  simp [WellFormed, Instr.wellFormed, hne, h6]

theorem wellFormed_encSc2 {shift z : Zchar} (h : scGet (deriveShortcuts table) c = some (.two shift z))
    (hne : c ≠ zsciiSpace) : WellFormed (.encSc2 c shift z) := by
  obtain ⟨k, hk, j, hj, ⟨hesc, -, -⟩, hsh⟩ := exists_slot_of_scGet h hne
  obtain ⟨hk0, rfl, hz⟩ := two_eq_shortcutOfSlot hj hsh
  obtain rfl | rfl : k = 1 ∨ k = 2 := by omega
  · have h6 : 6#5 ≤ z := BitVec.le_def.mpr (by rw [hz]; exact Nat.le_add_right 6 j)
    simp [WellFormed, Instr.wellFormed, hne, h6]
  · have h7 : 7#5 ≤ z := by
      have hj0 : j ≠ 0 := fun hj0 => hesc (congrArg (26 * 2 + ·) hj0)
      refine BitVec.le_def.mpr ?_
      rw [hz]
      show 7 ≤ 6 + j
      omega
    simp [WellFormed, Instr.wellFormed, hne, h7]

end Derived

/-- An element's class is well formed, and the shortcut map selects it. -/
theorem decodeZscii_wellFormed_selected (table : AlphabetTable) (c : Nat) :
    WellFormed (decodeZscii (deriveShortcuts table) c) ∧
      selectedBy (deriveShortcuts table) (decodeZscii (deriveShortcuts table) c) = true := by
  rcases decodeZscii_cases (deriveShortcuts table) c with
    ⟨rfl, hi⟩ | ⟨hc, hi⟩ | ⟨hc, hne, ⟨z, hget, hi⟩ | ⟨shift, z, hget, hi⟩ | ⟨hget, hi⟩⟩ <;> rw [hi]
  · exact ⟨rfl, rfl⟩
  · exact ⟨by simpa [WellFormed, Instr.wellFormed, inZsciiRange] using hc, rfl⟩
  · exact ⟨wellFormed_encSc1 hget (zsciiOfInput_ne_space hc hne), by simp [selectedBy, hget]⟩
  · exact ⟨wellFormed_encSc2 hget (zsciiOfInput_ne_space hc hne), by simp [selectedBy, hget]⟩
  · have hspace := zsciiOfInput_ne_space hc hne
    exact ⟨by simpa [WellFormed, Instr.wellFormed] using hspace, by simp [selectedBy, hget]⟩

/-- Settles O3: each row's fields, put together again, are the word; only the encoder's classes need the derived map. -/
theorem encodeOfDecode : Obligations.EncodeOfDecode := by
  intro table w i h
  have hencode := encode_of_decode h
  refine ⟨hencode, ?_⟩
  cases w with
  | zscii c => exact Except.ok.inj h ▸ decodeZscii_wellFormed_selected table c
  | key k =>
    exact ⟨(encode_decodeKey k i (congrArg Except.toOption h)).2, selectedBy_of_not_zscii _ (by simp [hencode])⟩
  | unpackKey k =>
    exact ⟨Except.ok.inj h ▸ (encode_decodeUnpackKey k).2, selectedBy_of_not_zscii _ (by simp [hencode])⟩
  | cmd b =>
    exact ⟨Except.ok.inj h ▸ (encode_decodeCommand b).2, selectedBy_of_not_zscii _ (by simp [hencode])⟩

/-! ### The selection tables -/

/-- Settles O7: the fixed patterns select by value, and the shortcut map the rest. -/
theorem encoderClassSelection : Obligations.EncoderClassSelection := by
  intro sc c
  rcases decodeZscii_cases sc c with
    ⟨rfl, hi⟩ | ⟨hc, hi⟩ | ⟨hc, hne, ⟨z, hget, hi⟩ | ⟨shift, z, hget, hi⟩ | ⟨hget, hi⟩⟩ <;> rw [hi]
  · rfl
  · rw [if_neg (by omega), if_neg (by omega)]
  all_goals
    rw [if_neg hne, if_pos hc, show scGet sc (BitVec.ofNat 10 c) = _ from hget]
    rfl

/-- Settles O1: the decoder evaluates on each word, and reads the shortcut map for none of them. -/
theorem tableWordsDecode : Obligations.TableWordsDecode := by
  intro sc
  refine ⟨rfl, rfl, rfl, rfl, rfl, rfl, ?_, ?_, ?_, ?_, rfl, rfl⟩
  · exact congrArg Except.ok (by decide)
  · exact congrArg Except.ok (by decide)
  · exact congrArg Except.ok (decodeZscii_space sc)
  · exact congrArg Except.ok (decodeZscii_outOfRange sc (by decide))

/-- Settles O4: the thirteen rows on each of the 512 keys. -/
theorem keyRowsPartitionReachableKeys : Obligations.KeyRowsPartitionReachableKeys :=
  ⟨by decide +kernel, by decide +kernel⟩

/-- Settles O6: the nineteen rows on each of the 256 bytes. -/
theorem commandByteSelectsOperation : Obligations.CommandByteSelectsOperation := by
  unfold Obligations.CommandByteSelectsOperation
  decide +kernel

/-! ### The shortcut map -/

theorem firstIndex_iff {table : AlphabetTable} {c : Zscii} (i : Fin 78) :
    FirstIndex table c i ↔ i ≠ 52 ∧ table[i] = c ∧ ∀ j : Fin 78, j < i → j ≠ 52 → table[j] ≠ c := by
  have hesc (j : Fin 78) : j.val ≠ escSlot ↔ j ≠ 52 := not_congr (Fin.ext_iff (b := 52)).symm
  have hentry (j : Fin 78) : alphaEntry table j = some c ↔ table[j] = c :=
    alphaEntry_eq_some_iff.trans ⟨fun ⟨_, h⟩ => h, fun h => ⟨j.isLt, h⟩⟩
  refine and_congr (hesc i) (and_congr (hentry i) ⟨fun h j hj h52 heq => ?_, fun h j hj h52 heq => ?_⟩)
  · exact h j hj ((hesc j).mpr h52) ((hentry j).mpr heq)
  · have hj' : j < 78 := Nat.lt_trans hj i.isLt
    exact h ⟨j, hj'⟩ hj ((hesc ⟨j, hj'⟩).mp h52) ((hentry ⟨j, hj'⟩).mp heq)

/-- Settles O31: the derivation keeps the shortcut of the first visit, in ascending order of the indices. -/
theorem shortcutIsOfLowestIndex : Obligations.ShortcutIsOfLowestIndex := by
  intro table c hne sh
  rw [scGet_deriveShortcuts, if_neg (show c ≠ zsciiSpace from hne)]
  constructor
  · rintro ⟨i, hi, hfirst, hsh⟩
    obtain ⟨h52, hat, hleast⟩ := (firstIndex_iff ⟨i, hi⟩).mp hfirst
    exact ⟨⟨i, hi⟩, h52, hat, hleast, hsh⟩
  · rintro ⟨i, h52, hat, hleast, hsh⟩
    exact ⟨i, i.isLt, (firstIndex_iff i).mpr ⟨h52, hat, hleast⟩, hsh⟩

/-- Settles O34: the derivation runs on the one default table. -/
theorem defaultShortcutTable : Obligations.DefaultShortcutTable := by
  unfold Obligations.DefaultShortcutTable
  decide +kernel

end Sys2Proof

/-! What one step can write (20_memory.md R61, R62; 70_reset_and_hazards.md R264): the fields outside the working
state. -/

namespace Sys2Proof

open Machine Reference Safety Claims

/-! ### What an instruction can write -/

/-- `t` is `s` with a stage running, or going on, in some working state. -/
def StageGoesOn (s t : State) : Prop :=
  ∃ (e : Engine) (w : WorkingState), (e = s.engine ∨ e ≠ .idle) ∧ t = { s with engine := e, work := w }

/-- `t` is `s` after a response; an error carries no output. -/
def GivesResponse (s t : State) : Prop :=
  ∃ (w : WorkingState) (r : ResponseState) (out : List Elem),
    (r.status ≠ 0 → out = []) ∧ t = giveResponse r out { s with work := w }

theorem raise_givesResponse (kind : ErrorKind) (value : BitVec 16) (alph : BitVec 2) (pos : Nat) (s : State) :
    GivesResponse s (raise kind value alph pos s) := ⟨s.work, _, [], fun _ => rfl, rfl⟩

theorem respondOk_givesResponse (w : WorkingState) (s : State) : GivesResponse s (respondOk { s with work := w }) :=
  ⟨w, _, _, fun h => absurd rfl h, rfl⟩

/-- An instruction that consumes elements and emits others. -/
theorem goesOn_of_emitted {i : Instr} {s t : State} {w : WorkingState} {n : Nat} {vs : List Elem}
    (hexec : ∃ t, exec i s = .next t ∧ Emitted { s with work := w } t n vs) (h : exec i s = .next t) :
    StageGoesOn s t := by
  obtain ⟨t', hexec, ht⟩ := hexec
  obtain rfl := Host.Outcome.next.inj (hexec.symm.trans h)
  exact ⟨s.engine, _, .inl rfl, ht⟩

/-- An instruction of the decoder that takes no error. -/
theorem goesOn_of_stepped {i : Instr} {s t : State} {w : WorkingState} {vs : List Elem} {alph phase : BitVec 2}
    (hexec : ∃ t, exec i s = .next t ∧ DecoderStepped { s with work := w } t vs alph phase) (h : exec i s = .next t) :
    StageGoesOn s t := by
  obtain ⟨t', hexec, ht⟩ := hexec
  obtain rfl := Host.Outcome.next.inj (hexec.symm.trans h)
  exact ⟨s.engine, _, .inl rfl, ht⟩

/-- An instruction that takes an error. -/
theorem givesResponse_of_exec {i : Instr} {s t : State} {kind : ErrorKind} {value : BitVec 16} {alph : BitVec 2}
    {pos : Nat} (hexec : ∃ t, exec i s = .next t ∧ Responded s t (failed kind value alph pos) [])
    (h : exec i s = .next t) : GivesResponse s t := by
  obtain ⟨t', hexec, hresp⟩ := hexec
  obtain rfl := Host.Outcome.next.inj (hexec.symm.trans h)
  exact ⟨s.work, _, [], fun _ => rfl, hresp⟩

/-- Loading an alphabet raises one of two errors and keeps the configuration, or succeeds and makes one of a table. -/
theorem loaded_cases (p : Params) (c : Configuration) (entries : List Zscii) :
    (∃ kind value, (kind = .invalidAlphabetTable ∨ kind = .escapeSlotNotNul) ∧
      loaded p c entries = (failed kind value 0 0, c)) ∨
    ∃ table, loaded p c entries = (ResponseState.success, Configuration.ofTable table c.cfgVersion) := by
  by_cases hlen : entries.toArray.size = 78
  · by_cases hfail : (⟨entries.toArray, hlen⟩ : AlphabetTable)[52] ≠ 0x000 ∧ p.a2Slot0Fatal = true
    · exact .inl ⟨_, _, .inr rfl, by rw [loaded, dif_pos hlen]; exact if_pos hfail⟩
    · exact .inr ⟨_, by rw [loaded, dif_pos hlen]; exact if_neg hfail⟩
  · exact .inl ⟨_, _, .inl rfl, by rw [loaded, dif_neg hlen]⟩

/-- The same for `CONFIGURE`, which succeeds with version 5 only. -/
theorem configured_cases (p : Params) (c : Configuration) (alt : Bool) (r : Request) :
    (∃ kind value, (kind = .unsupportedVersion ∨ kind = .invalidAlphabetTable ∨ kind = .escapeSlotNotNul) ∧
      configured p c alt r = (failed kind value 0 0, c)) ∨
    (r.version = 5 ∧
      ∃ table, configured p c alt r = (ResponseState.success, Configuration.ofTable table c.cfgVersion)) := by
  by_cases hversion : r.version = 5
  · rw [configured, if_pos hversion]
    rcases loaded_cases p c _ with ⟨kind, value, hkind, h⟩ | hok
    · exact .inl ⟨kind, value, .inr hkind, h⟩
    · exact .inr ⟨hversion, hok⟩
  · exact .inl ⟨_, _, .inl rfl, by rw [configured, if_neg hversion]⟩

theorem configured_config (p : Params) (c : Configuration) (alt : Bool) (r : Request) :
    (configured p c alt r).2 = c ∨ (r.version = 5 ∧ (configured p c alt r).1.status = 0) := by
  rcases configured_cases p c alt r with ⟨kind, value, -, h⟩ | ⟨hversion, table, h⟩ <;> rw [h]
  · exact .inl rfl
  · exact .inr ⟨hversion, rfl⟩

/-- An instruction but `CONFIGURE` writes the working state and the engine, or gives a response. -/
theorem exec_cases {i : Instr} {s t : State} (hi : ∀ alt, i ≠ .configure alt) (h : exec i s = .next t) :
    StageGoesOn s t ∨ GivesResponse s t := by
  have unpacker (b : Bool) : StageGoesOn s (startUnpacker b s.request.data s) ∨
      GivesResponse s (startUnpacker b s.request.data s) := by
    by_cases hodd : s.request.data.length % 2 = 1
    · rw [startUnpacker_odd b s hodd]
      exact .inr (raise_givesResponse _ _ _ _ s)
    · rw [startUnpacker_even b s (by omega)]
      exact .inl ⟨_, _, .inr (by simp), rfl⟩
  cases i with
  | configure alt => exact absurd rfl (hi alt)
  | zcRsv alph z => exact .inr (givesResponse_of_exec (exec_zcRsv_responded alph z s) h)
  | pwAfterTerm word => exact .inr (givesResponse_of_exec (exec_pwAfterTerm_responded word s) h)
  | encOor c => exact .inr (givesResponse_of_exec (exec_encOor_responded c s) h)
  | reserved cmd => exact .inr (givesResponse_of_exec ⟨_, exec_reserved cmd s, raise_responded _ _ _ _ s⟩ h)
  | zcLit alph z =>
    simp only [exec, execZcLit] at h
    split at h
    next =>
      obtain rfl := Host.Outcome.next.inj h
      exact .inl ⟨_, _, .inl rfl, rfl⟩
    next => cases h
  | encZ | encodeZ | decZ | pack =>
    obtain rfl := Host.Outcome.next.inj h
    exact .inl ⟨_, _, .inr (by simp), rfl⟩
  | unpack | decodeZ =>
    obtain rfl := Host.Outcome.next.inj h
    exact unpacker _
  | zcEscHi alph z => exact .inl (goesOn_of_stepped (exec_zcEscHi_stepped alph z s) h)
  | zcEscLo alph z => exact .inl (goesOn_of_stepped (exec_zcEscLo_stepped alph z s) h)
  | zcSpace alph => exact .inl (goesOn_of_stepped (exec_zcSpace_stepped alph s) h)
  | zcShiftA1 alph => exact .inl (goesOn_of_stepped (exec_zcShiftA1_stepped alph s) h)
  | zcShiftA2 alph => exact .inl (goesOn_of_stepped (exec_zcShiftA2_stepped alph s) h)
  | zcEscape => exact .inl (goesOn_of_stepped (exec_zcEscape_stepped s) h)
  | pwMid z0 z1 z2 => exact .inl (goesOn_of_emitted (exec_pwMid_emitted z0 z1 z2 s) h)
  | pwFinal z0 z1 z2 => exact .inl (goesOn_of_emitted (exec_pwFinal_emitted z0 z1 z2 s) h)
  | encSpace => exact .inl (goesOn_of_emitted (exec_encSpace_emitted s) h)
  | encSc1 c z => exact .inl (goesOn_of_emitted (exec_encSc1_emitted c z s) h)
  | encSc2 c shift z => exact .inl (goesOn_of_emitted (exec_encSc2_emitted c shift z s) h)
  | encEsc c => exact .inl (goesOn_of_emitted (exec_encEsc_emitted c s) h)

/-! ### What a step of a running block can write -/

/-- `t` is `s` in some working state. -/
def ChangesWork (s t : State) : Prop := ∃ w, t = { s with work := w }

theorem ChangesWork.trans {s t u : State} (h : ChangesWork s t) (h' : ChangesWork t u) : ChangesWork s u := by
  obtain ⟨w, rfl⟩ := h
  obtain ⟨w', rfl⟩ := h'
  exact ⟨w', rfl⟩

theorem emit_changesWork (v : Elem) (s : State) : ChangesWork s (emit v s) := ⟨_, rfl⟩

theorem advance_changesWork (n : Nat) (s : State) : ChangesWork s (advance n s) := ⟨_, rfl⟩

theorem pushGroup_changesWork (z : Zchar) (s : State) : ChangesWork s (pushGroup z s) := ⟨_, rfl⟩

theorem clearGroup_changesWork (s : State) : ChangesWork s (clearGroup s) := ⟨_, rfl⟩

theorem padGroup_changesWork (s : State) : ChangesWork s (padGroup s) := ⟨_, rfl⟩

theorem putWord_changesWork (final : Bool) (s : State) : ChangesWork s (putWord final s) :=
  (emit_changesWork _ s).trans (emit_changesWork _ _)

theorem packElement_changesWork (z : Zchar) (s : State) : ChangesWork s (packElement z s) := by
  unfold packElement
  dsimp only
  refine ChangesWork.trans ?_ (advance_changesWork 1 _)
  split
  · exact ((pushGroup_changesWork z s).trans (putWord_changesWork _ _)).trans (clearGroup_changesWork _)
  · exact pushGroup_changesWork z s

theorem flushGroup_changesWork (s : State) : ChangesWork s (flushGroup s) := by
  unfold flushGroup
  split
  · exact ⟨s.work, rfl⟩
  · exact ((padGroup_changesWork s).trans (putWord_changesWork _ _)).trans (clearGroup_changesWork _)

theorem finishStage_cases {s : State} (h : s.engine ≠ .idle) :
    (∃ e w, e ≠ .idle ∧ finishStage s = { s with engine := e, work := w }) ∨ GivesResponse s (finishStage s) := by
  cases hen : s.engine with
  | idle => exact absurd hen h
  | encoder b =>
    cases b with
    | false => rw [finishStage, hen]; exact .inr (respondOk_givesResponse s.work s)
    | true => rw [finishStage, hen]; exact .inl ⟨_, _, by simp, rfl⟩
  | decoder m =>
    have hfin : finishStage s = finishDecoder m s := by rw [finishStage, hen]
    rcases finishDecoder_cases m s with ⟨-, h⟩ | ⟨-, -, -, h⟩ | ⟨-, -, h⟩ <;> rw [hfin, h]
    · exact .inr (raise_givesResponse _ _ _ _ s)
    · exact .inr (raise_givesResponse _ _ _ _ s)
    · exact .inr (respondOk_givesResponse s.work s)
  | packer =>
    obtain ⟨w, hw⟩ := flushGroup_changesWork s
    rw [finishStage, hen]
    dsimp only
    rw [hw]
    exact .inr (respondOk_givesResponse w s)
  | unpacker b =>
    cases b with
    | false => rw [finishStage, hen]; exact .inr (respondOk_givesResponse s.work s)
    | true => rw [finishStage, hen]; exact .inl ⟨_, _, by simp, rfl⟩

/-- No element of a running stage selects a command. -/
theorem ne_configure_of_decode {sc : ShortcutMap} {w : CodeWord} {i : Instr} (h : decode sc w = .ok i)
    (hw : ∀ b, w ≠ .cmd b) (alt : Bool) : i ≠ .configure alt := by
  rintro rfl
  exact hw _ (encode_of_decode h).symm

theorem step_running_cases {s t : State} (hne : s.engine ≠ .idle) (h : step s = .next t) :
    (∃ e w, e ≠ .idle ∧ t = { s with engine := e, work := w }) ∨ GivesResponse s t := by
  have of_exec {w : CodeWord} {i : Instr} (hi : decode s.config.sc w = .ok i) (hw : ∀ b, w ≠ .cmd b)
      (hexec : step s = exec i s) :
      (∃ e w, e ≠ .idle ∧ t = { s with engine := e, work := w }) ∨ GivesResponse s t := by
    rcases exec_cases (ne_configure_of_decode hi hw) (hexec.symm.trans h) with ⟨e, w, he, ht⟩ | hresp
    · exact .inl ⟨e, w, he.elim (fun heq => heq ▸ hne) id, ht⟩
    · exact .inr hresp
  rcases step_cases s with ⟨hidle, -, -⟩ | ⟨_, _, hidle, -, -⟩ | ⟨-, -, hstep⟩ | ⟨b, c, -, -, hstep⟩ |
    ⟨m, e, i, -, -, hi, hstep⟩ | ⟨m, e, -, -, -, hstep⟩ | ⟨e, -, -, hstep⟩ | ⟨b, high, low, -, -, -, hstep⟩ |
    ⟨b, high, -, -, -, hstep⟩
  · exact absurd hidle hne
  · exact absurd hidle hne
  · obtain rfl := Host.Outcome.next.inj (hstep.symm.trans h)
    exact finishStage_cases hne
  · exact of_exec (w := .zscii _) rfl (by simp) hstep
  · exact of_exec (w := .key _) hi (by simp) hstep
  · cases hstep.symm.trans h
  · obtain rfl := Host.Outcome.next.inj (hstep.symm.trans h)
    obtain ⟨w, hw⟩ := packElement_changesWork e.toZchar s
    exact .inl ⟨s.engine, w, hne, hw⟩
  · exact of_exec (w := .unpackKey _) rfl (by simp) hstep
  · cases hstep.symm.trans h

/-! ### What the acceptance of a request can write -/

theorem decodeCommand_configure_iff : ∀ b : BitVec 8,
    (∃ alt, decodeCommand b = .configure alt) ↔ b = 0x00 ∨ b = 0x08 := by
  decide +kernel

/-- The step that takes a request starts a stage or gives the response; only a `CONFIGURE` that succeeds writes the
configuration. -/
theorem step_accept_cases {s t : State} {r : Request} {rest : List Request} (hidle : s.engine = .idle)
    (hr : s.requests = r :: rest) (h : step s = .next t) :
    StageGoesOn (acceptRequest r rest s) t ∨ GivesResponse (acceptRequest r rest s) t ∨
      ∃ (c : Configuration) (rs : ResponseState), (r.cmd = 0x00 ∨ r.cmd = 0x08) ∧
        (c = s.config ∨ (r.version = 5 ∧ rs.status = 0)) ∧
        t = giveResponse rs [] { acceptRequest r rest s with config := c } := by
  rw [step_accept hidle hr] at h
  by_cases hconf : ∃ alt, decodeCommand r.cmd = .configure alt
  · refine .inr (.inr ?_)
    have hcmd := (decodeCommand_configure_iff r.cmd).mp hconf
    obtain ⟨alt, hi⟩ := hconf
    rw [hi, exec_configure, execConfigure_eq_configured] at h
    obtain rfl := Host.Outcome.next.inj h
    exact ⟨_, _, hcmd, configured_config s.params s.config alt r, rfl⟩
  · exact (exec_cases (fun alt hi => hconf ⟨alt, hi⟩) h).imp_right .inl

/-! ### The obligations -/

/-- Settles O54: a running block writes no configuration, and an idle one in the step that accepts a `CONFIGURE`. -/
theorem onlyConfigureWritesConfiguration : Obligations.OnlyConfigureWritesConfiguration := by
  intro s t h
  by_cases hidle : s.engine = .idle
  · cases hr : s.requests with
    | nil =>
      obtain rfl := Host.Outcome.next.inj ((step_idle hidle hr).symm.trans h)
      exact ⟨rfl, .inl rfl⟩
    | cons r rest =>
      rcases step_accept_cases hidle hr h with ⟨e, w, -, rfl⟩ | ⟨w, rs, out, -, rfl⟩ | ⟨c, rs, hcmd, hc, rfl⟩
      · exact ⟨rfl, .inl rfl⟩
      · exact ⟨rfl, .inl rfl⟩
      · exact ⟨rfl, hc.imp_right fun ⟨hversion, hstatus⟩ => ⟨r, rest, hidle, rfl, hcmd, hversion, rfl, hstatus⟩⟩
  · rcases step_running_cases hidle h with ⟨e, w, -, rfl⟩ | ⟨w, rs, out, -, rfl⟩
    · exact ⟨rfl, .inl rfl⟩
    · exact ⟨rfl, .inl rfl⟩

/-- Settles O55: a step of a running block writes the working state alone, or gives a response. -/
theorem operationsAreAtomicToHost : Obligations.OperationsAreAtomicToHost := by
  intro s t hne h
  rcases step_running_cases hne h with ⟨e, w, he, rfl⟩ | ⟨w, rs, out, hout, rfl⟩
  · exact ⟨fun _ => ⟨rfl, rfl, rfl⟩, fun hidle => absurd hidle he⟩
  · exact ⟨fun hrun => absurd rfl hrun, fun _ => ⟨_, rfl, rfl, rfl, hout⟩⟩

/-! ### A request that waits -/

section Post
variable (r : Request) (s : State)

theorem startUnpacker_post (b : Bool) (input : List Elem) :
    startUnpacker b input (s.post r) = (startUnpacker b input s).post r := by
  unfold startUnpacker
  split <;> rfl

theorem emit_post (v : Elem) : emit v (s.post r) = (emit v s).post r := rfl

theorem advance_post (n : Nat) : advance n (s.post r) = (advance n s).post r := rfl

theorem pushGroup_post (z : Zchar) : pushGroup z (s.post r) = (pushGroup z s).post r := rfl

theorem clearGroup_post : clearGroup (s.post r) = (clearGroup s).post r := rfl

theorem padGroup_post : padGroup (s.post r) = (padGroup s).post r := rfl

theorem putWord_post (final : Bool) : putWord final (s.post r) = (putWord final s).post r := by
  simp only [putWord, emit_post, post_work]

theorem packElement_post (z : Zchar) : packElement z (s.post r) = (packElement z s).post r := by
  simp only [packElement, pushGroup_post, post_work, putWord_post, clearGroup_post]
  split <;> rw [advance_post]

theorem flushGroup_post : flushGroup (s.post r) = (flushGroup s).post r := by
  simp only [flushGroup, post_work, padGroup_post, putWord_post, clearGroup_post]
  split <;> rfl

theorem finishDecoder_post (m : EndMode) : finishDecoder m (s.post r) = (finishDecoder m s).post r := by
  rcases finishDecoder_cases m s with ⟨hphase, h⟩ | ⟨hphase, halph, rfl, h⟩ | ⟨hphase, hend, h⟩ <;> rw [h]
  · exact finishDecoder_escape (s := s.post r) m hphase
  · exact finishDecoder_strict (s := s.post r) hphase halph
  · exact finishDecoder_ok (s := s.post r) hphase hend

theorem finishStage_post : finishStage (s.post r) = (finishStage s).post r := by
  simp only [finishStage, post_engine]
  cases s.engine with
  | decoder m => exact finishDecoder_post r s m
  | packer => exact congrArg respondOk (flushGroup_post r s)
  | idle => rfl
  | encoder b => cases b <;> rfl
  | unpacker b => cases b <;> rfl

/-- No instruction reads the line of requests. -/
theorem exec_post {i : Instr} {s t : State} (h : exec i s = .next t) : exec i (s.post r) = .next (t.post r) := by
  cases i with
  | zcLit alph z =>
    simp only [exec, execZcLit, post_config] at h ⊢
    split at h
    next => obtain rfl := Host.Outcome.next.inj h; rfl
    next => cases h
  | configure alt =>
    rw [exec_configure, execConfigure_eq_configured] at h ⊢
    obtain rfl := Host.Outcome.next.inj h
    rfl
  | unpack | decodeZ =>
    obtain rfl := Host.Outcome.next.inj h
    exact congrArg Host.Outcome.next (startUnpacker_post r s _ _)
  | encEsc c =>
    obtain rfl := Host.Outcome.next.inj h
    simp only [exec, execEncEsc, emit_post, advance_post]
  | pwMid z0 z1 z2 | pwFinal z0 z1 z2 =>
    obtain rfl := Host.Outcome.next.inj h
    simp only [exec, execPwMid, execPwFinal, unpackWord, emit_post]
    rfl
  | _ =>
    obtain rfl := Host.Outcome.next.inj h
    rfl

end Post

/-- A step that has something to do is the same with one more request in line. -/
theorem step_post_of_not_ready {s t : State} (r : Request) (hbusy : ¬Ready s) (h : step s = .next t) :
    step (s.post r) = .next (t.post r) := by
  rcases step_cases s with ⟨hidle, hr, -⟩ | ⟨r', rest, hidle, hr, hstep⟩ | ⟨hne, hend, hstep⟩ | ⟨b, c, hen, hc, hstep⟩ |
    ⟨m, e, i, hen, he, hi, hstep⟩ | ⟨m, e, -, -, -, hstep⟩ | ⟨e, hen, he, hstep⟩ |
    ⟨b, high, low, hen, hhigh, hlow, hstep⟩ | ⟨b, high, -, -, -, hstep⟩
  · exact absurd ⟨hidle, hr⟩ hbusy
  · have hline : (s.post r).requests = r' :: (rest ++ [r]) := by rw [post_requests, hr]; rfl
    exact (step_accept (s := s.post r) hidle hline).trans (exec_post r (hstep.symm.trans h))
  · obtain rfl := Host.Outcome.next.inj (hstep.symm.trans h)
    exact (step_finish (s := s.post r) hne hend).trans (congrArg _ (finishStage_post r s))
  · exact (step_encoder (s := s.post r) hen hc).trans (exec_post r (hstep.symm.trans h))
  · exact (step_decoder (s := s.post r) hen he hi).trans (exec_post r (hstep.symm.trans h))
  · cases hstep.symm.trans h
  · obtain rfl := Host.Outcome.next.inj (hstep.symm.trans h)
    exact (step_packer (s := s.post r) hen he).trans (congrArg _ (packElement_post r s _))
  · exact (step_unpacker (s := s.post r) hen hhigh hlow).trans (exec_post r (hstep.symm.trans h))
  · cases hstep.symm.trans h

/-- Settles O58: no step but the acceptance reads the line, and that one takes its head. -/
theorem waitingRequestsAreKeptInOrder : Obligations.WaitingRequestsAreKeptInOrder := by
  refine ⟨fun s t r hbusy h => step_post_of_not_ready r hbusy h, fun s t h => ⟨fun hne => ?running, fun hidle => ?idle⟩⟩
  case running =>
    rcases step_running_cases hne h with ⟨e, w, -, rfl⟩ | ⟨w, rs, out, -, rfl⟩
    · rfl
    · rfl
  case idle =>
    cases hr : s.requests with
    | nil =>
      obtain rfl := Host.Outcome.next.inj ((step_idle hidle hr).symm.trans h)
      exact hr
    | cons r rest =>
      rcases step_accept_cases hidle hr h with ⟨e, w, -, rfl⟩ | ⟨w, rs, out, -, rfl⟩ | ⟨c, rs, -, -, rfl⟩
      · rfl
      · rfl
      · rfl

end Sys2Proof

/-! The invariant of every reachable state, and that a state which meets it makes a step (10_state.md sections 2 to 4;
42_decoder.md R167; 20_memory.md R65). -/

namespace Sys2Proof

open Machine Reference Safety Claims

/-! ### Responses -/

/-- The block raises no error of the ZsciiTable (00_scope.md R7), and reports an alphabet with `UnknownZchar` only. -/
theorem responseInv_failed {kind : ErrorKind} {value : BitVec 16} {alph : BitVec 2} {pos : Nat}
    (hkind : kind ≠ .ambiguousMapping ∧ kind ≠ .unmappableUnicodeChar ∧ kind ≠ .unmappableZsciiChar)
    (halph : alph = 0 ∨ (kind = .unknownZchar ∧ alph ≠ 3)) : ResponseInv (failed kind value alph pos) := by
  obtain ⟨hambiguous, hunicode, hzscii⟩ := hkind
  refine ⟨?status, ?success, ?alphabet, ?range⟩
  case status => cases kind <;> simp_all [statusCode]
  case success => exact fun h => absurd h (by cases kind <;> simp [statusCode])
  case alphabet =>
    intro hne
    rcases halph with rfl | ⟨rfl, -⟩
    · rfl
    · exact absurd rfl hne
  case range =>
    rcases halph with rfl | ⟨-, h3⟩
    · simp
    · exact h3

theorem responseInv_success : ResponseInv ResponseState.success :=
  ⟨by decide, fun _ => ⟨rfl, rfl, rfl⟩, fun _ => rfl, by decide⟩

/-- Giving a legal response keeps the invariant, whatever stage ends. -/
theorem inv_giveResponse {s : State} {r : ResponseState} {out : List Elem} (hconfig : ConfigInv s.config)
    (hgiven : ∀ p ∈ s.responses, GivenInv p) (hregs : s.work.alph ≠ 3 ∧ s.work.phase ≠ 3) (hr : ResponseInv r)
    (hout : r.status ≠ 0 → out = []) : Inv (giveResponse r out s) := by
  refine ⟨hconfig, hr, fun p hp => ?_, hregs, rfl⟩
  rcases List.mem_append.mp hp with hp | hp
  · exact hgiven p hp
  · obtain rfl := List.mem_singleton.mp hp
    exact ⟨hr, hout⟩

/-! ### The invariant and the shared operations -/

namespace Safety

section
variable {s : State}

theorem Inv.giveResponse (h : Inv s) {r : ResponseState} {out : List Elem} (hr : ResponseInv r)
    (hout : r.status ≠ 0 → out = []) : Inv (Machine.giveResponse r out s) := by
  obtain ⟨hconfig, -, hgiven, hregs, -⟩ := h
  exact inv_giveResponse hconfig hgiven hregs hr hout

theorem Inv.raise (h : Inv s) {kind : ErrorKind} {value : BitVec 16} {alph : BitVec 2} {pos : Nat}
    (hkind : kind ≠ .ambiguousMapping ∧ kind ≠ .unmappableUnicodeChar ∧ kind ≠ .unmappableZsciiChar)
    (halph : alph = 0 ∨ (kind = .unknownZchar ∧ alph ≠ 3)) : Inv (Machine.raise kind value alph pos s) :=
  h.giveResponse (responseInv_failed hkind halph) fun _ => rfl

theorem Inv.respondOk (h : Inv s) : Inv (Machine.respondOk s) :=
  h.giveResponse responseInv_success fun hne => absurd rfl hne

/-- A step that changes the engine and the working state only. -/
theorem Inv.withWork (h : Inv s) {e : Engine} {w : WorkingState} (halph : w.alph ≠ 3) (hphase : w.phase ≠ 3)
    (hengine : EngineInv e w) : Inv { s with engine := e, work := w } := by
  obtain ⟨hconfig, hresp, hgiven, -, -⟩ := h
  exact ⟨hconfig, hresp, hgiven, ⟨halph, hphase⟩, hengine⟩

theorem Inv.acceptRequest (h : Inv s) (r : Request) (rest : List Request) : Inv (Machine.acceptRequest r rest s) := h

theorem Inv.alph_ne_three (h : Inv s) : s.work.alph ≠ 3 := by
  obtain ⟨-, -, -, ⟨halph, -⟩, -⟩ := h
  exact halph

theorem Inv.phase_ne_three (h : Inv s) : s.work.phase ≠ 3 := by
  obtain ⟨-, -, -, ⟨-, hphase⟩, -⟩ := h
  exact hphase

theorem Inv.engineInv (h : Inv s) {e : Engine} (hen : s.engine = e) : EngineInv e s.work := by
  obtain ⟨-, -, -, -, hengine⟩ := h
  exact hen ▸ hengine

/-! ### Starting a stage -/

theorem Inv.startEncoder (h : Inv s) (b : Bool) (input : List Elem) : Inv (Machine.startEncoder b input s) :=
  h.withWork h.alph_ne_three h.phase_ne_three ⟨Nat.zero_le _, by simp⟩

theorem Inv.startDecoder (h : Inv s) (m : EndMode) (input : List Elem) : Inv (Machine.startDecoder m input s) :=
  h.withWork (w := (Machine.startDecoder m input s).work) (by simp [startDecoder_eq]) (by simp [startDecoder_eq])
    ⟨Nat.zero_le _, by simp [startDecoder_eq], fun hphase => absurd rfl hphase⟩

theorem Inv.startPacker (h : Inv s) (input : List Elem) : Inv (Machine.startPacker input s) :=
  h.withWork h.alph_ne_three h.phase_ne_three ⟨Nat.zero_le _, by simp, rfl, by simp⟩

theorem Inv.startUnpacker (h : Inv s) (b : Bool) (input : List Elem) : Inv (Machine.startUnpacker b input s) := by
  by_cases hodd : input.length % 2 = 1
  · rw [startUnpacker_odd b s hodd]
    exact h.raise (by decide) (.inl rfl)
  · have heven : input.length % 2 = 0 := by omega
    rw [startUnpacker_even b s heven]
    exact h.withWork h.alph_ne_three h.phase_ne_three ⟨Nat.zero_le _, by simp, heven, rfl, by simp⟩

/-! ### The commands -/

/-- A `CONFIGURE` leaves the configuration there was, or one of a table (R104). -/
theorem Inv.configured (h : Inv s) (alt : Bool) (r : Request) :
    Inv (Machine.giveResponse (configured s.params s.config alt r).1 []
      { s with config := (configured s.params s.config alt r).2 }) := by
  obtain ⟨hconfig, -, hgiven, hregs, -⟩ := h
  obtain ⟨-, hversion, -⟩ := id hconfig
  rcases configured_cases s.params s.config alt r with ⟨kind, value, hkind, hfail⟩ | ⟨-, table, hok⟩
  · rw [hfail]
    refine inv_giveResponse hconfig hgiven hregs (responseInv_failed ?_ (.inl rfl)) fun _ => rfl
    rcases hkind with rfl | rfl | rfl <;> decide
  · rw [hok, ofTable_eq]
    have hconfig' : ConfigInv { alpha := table, sc := deriveShortcuts table, cfgVersion := s.config.cfgVersion
                                warnA2s0 := decide (table[52] ≠ 0x000) } := ⟨rfl, hversion, rfl⟩
    exact inv_giveResponse hconfig' hgiven hregs responseInv_success fun _ => rfl

theorem Inv.command (h : Inv s) (b : BitVec 8) : ∃ t, exec (decodeCommand b) s = .next t ∧ Inv t := by
  rcases decodeCommand_cases b with ⟨alt, hi⟩ | hi | hi | hi | hi | hi | hi | hi <;> rw [hi]
  · exact ⟨_, execConfigure_eq_configured alt s, h.configured alt s.request⟩
  · exact ⟨_, rfl, h.startEncoder false s.request.data⟩
  · exact ⟨_, rfl, h.startDecoder .strict s.request.data⟩
  · exact ⟨_, rfl, h.startPacker s.request.data⟩
  · exact ⟨_, rfl, h.startUnpacker false s.request.data⟩
  · exact ⟨_, rfl, h.startEncoder true s.request.data⟩
  · exact ⟨_, rfl, h.startUnpacker true s.request.data⟩
  · exact ⟨_, exec_reserved b s, h.raise (by decide) (.inl rfl)⟩

/-! ### The elements of a stage -/

/-- The cursor moves past an element that there is. -/
theorem lt_length_of_reads {e : Elem} (he : Reads s e) : s.work.idx < s.work.input.length :=
  (List.getElem?_eq_some_iff.mp he).1

theorem forall_mem_append_map {α : Type} {out : List Elem} {vs : List α} {lane : α → Elem} {bound : Nat}
    (hout : ∀ e ∈ out, e < bound) (hlane : ∀ v, lane v < bound) : ∀ e ∈ out ++ vs.map lane, e < bound := by
  intro e he
  rcases List.mem_append.mp he with he | he
  · exact hout e he
  · obtain ⟨v, -, rfl⟩ := List.mem_map.mp he
    exact hlane v

theorem Inv.encoderStep (h : Inv s) {b : Bool} {c : Elem} (hen : s.engine = .encoder b) (hc : Reads s c) :
    ∃ t, step s = .next t ∧ Inv t := by
  rw [step_encoder hen hc]
  by_cases hrange : zsciiPort s.params.zsciiInW c < 1024
  · obtain ⟨t, hexec, ht⟩ := exec_decodeZscii_emitted s.config.sc hrange s
    obtain ⟨-, hout⟩ := h.engineInv hen
    refine ⟨t, hexec, ?_⟩
    subst ht
    refine h.withWork h.alph_ne_three h.phase_ne_three (hen ▸ ⟨lt_length_of_reads hc, ?_⟩)
    exact forall_mem_append_map hout ofZchar_lt
  · rw [decodeZscii_outOfRange _ (Nat.le_of_not_lt hrange)]
    exact ⟨_, rfl, h.raise (by decide) (.inl rfl)⟩

theorem Inv.unpackerStep (h : Inv s) {b : Bool} {high low : Elem} (hen : s.engine = .unpacker b) (hhigh : Reads s high)
    (hlow : s.work.input[s.work.idx + 1]? = some low) : ∃ t, step s = .next t ∧ Inv t := by
  cases hts : s.work.termSeen with
  | true =>
    rw [step_unpacker_trailing hen hhigh hlow hts]
    exact ⟨_, rfl, h.raise (by decide) (.inl rfl)⟩
  | false =>
    obtain ⟨t, hstep, ht⟩ := step_unpacker_emitted hen hhigh hlow rfl hts
    obtain ⟨-, hout, heven, hidx, hlen⟩ := h.engineInv hen
    obtain ⟨hlast, -⟩ := List.getElem?_eq_some_iff.mp hlow
    refine ⟨t, hstep, ?_⟩
    subst ht
    refine h.withWork h.alph_ne_three h.phase_ne_three (hen ▸ ⟨hlast, ?_, heven, ?_, ?_⟩)
    · exact forall_mem_append_map (vs := [_, _, _]) hout ofZchar_lt
    · show (s.work.idx + 2) % 2 = 0
      omega
    · show (s.work.out ++ _).length = 3 * ((s.work.idx + 2) / 2)
      rw [List.length_append, hlen]
      simp only [List.length_cons, List.length_nil]
      omega

theorem Inv.decoderStepped (h : Inv s) {t : State} {m : EndMode} {e : Elem} {vs : List Zscii} {alph phase : BitVec 2}
    (hen : s.engine = .decoder m) (he : Reads s e) (ht : DecoderStepped s t (vs.map Elem.ofZscii) alph phase)
    (halph : alph ≠ 3) (hphase : phase ≠ 3) (hesc : phase ≠ 0 → alph = 2) : Inv t := by
  obtain ⟨-, hout, -⟩ := h.engineInv hen
  subst ht
  exact h.withWork halph hphase (hen ▸ ⟨lt_length_of_reads he, forall_mem_append_map hout ofZscii_lt, hesc⟩)

/-- A Z-char in phase NORMAL. -/
theorem Inv.normalStep (h : Inv s) {m : EndMode} {e : Elem} (hen : s.engine = .decoder m) (he : Reads s e)
    (hphase : s.work.phase = 0) : ∃ t, step s = .next t ∧ Inv t := by
  have ha := h.alph_ne_three
  have stepped {i : Instr} {vs : List Zscii} {alph phase : BitVec 2}
      (hexec : ∃ t, exec i s = .next t ∧ DecoderStepped s t (vs.map Elem.ofZscii) alph phase) (halph : alph ≠ 3)
      (hphase' : phase ≠ 3) (hesc : phase ≠ 0 → alph = 2) : ∃ t, exec i s = .next t ∧ Inv t := by
    obtain ⟨t, hexec, ht⟩ := hexec
    exact ⟨t, hexec, h.decoderStepped hen he ht halph hphase' hesc⟩
  have hkeep : s.work.phase ≠ 0 → ∀ alph : BitVec 2, alph = 2 := fun hne => absurd hphase hne
  rw [step_decoder_normal hen he rfl hphase fun h3 => ha h3.1]
  generalize BitVec.ofNat 5 e = z
  rcases zchar_cases s.work.alph z with rfl | hrsv | rfl | rfl | ⟨rfl, halph⟩ | ⟨h6, hesc⟩
  · exact stepped (vs := [0x020]) (exec_zcSpace_stepped _ s) (by decide) h.phase_ne_three (hkeep · _)
  · rw [normalInstr_reserved _ hrsv]
    exact ⟨_, rfl, h.raise (by decide) (.inr ⟨rfl, ha⟩)⟩
  · exact stepped (vs := []) (exec_zcShiftA1_stepped _ s) (by decide) h.phase_ne_three (hkeep · _)
  · exact stepped (vs := []) (exec_zcShiftA2_stepped _ s) (by decide) h.phase_ne_three (hkeep · _)
  · rw [halph, normalInstr_escape]
    exact stepped (vs := []) (exec_zcEscape_stepped s) ha (by decide) fun _ => halph
  · rw [normalInstr_literal h6 hesc]
    obtain ⟨_, hexec⟩ := exec_zcLit_stepped ha z s
    exact stepped (vs := [_]) hexec (by decide) h.phase_ne_three (hkeep · _)

/-- A Z-char in any phase. -/
theorem Inv.decoderStep (h : Inv s) {m : EndMode} {e : Elem} (hen : s.engine = .decoder m) (he : Reads s e) :
    ∃ t, step s = .next t ∧ Inv t := by
  obtain ⟨hidx, hout, hesc⟩ := h.engineInv hen
  have hphases : ∀ p : BitVec 2, p ≠ 3 → p = 0 ∨ p = 1 ∨ p = 2 := by decide
  rcases hphases s.work.phase h.phase_ne_three with hphase | hphase | hphase
  · exact h.normalStep hen he hphase
  · rw [step_decoder_escHi hen he hphase]
    obtain ⟨t, hexec, ht⟩ := exec_zcEscHi_stepped s.work.alph (BitVec.ofNat 5 e) s
    have halph : s.work.alph = 2 := hesc (by rw [hphase]; decide)
    have hlatched : Inv { s with work.escHiLatch := BitVec.ofNat 5 e } :=
      h.withWork h.alph_ne_three h.phase_ne_three (hen ▸ ⟨hidx, hout, hesc⟩)
    exact ⟨t, hexec, hlatched.decoderStepped (vs := []) hen he ht h.alph_ne_three (by decide) fun _ => halph⟩
  · rw [step_decoder_escLo hen he hphase]
    obtain ⟨t, hexec, ht⟩ := exec_zcEscLo_stepped s.work.alph (BitVec.ofNat 5 e) s
    exact ⟨t, hexec, h.decoderStepped (vs := [_]) hen he ht (by decide) (by decide) fun hne => absurd rfl hne⟩

/-- A Z-char of the packer: the group grows, or is full and becomes a word. -/
theorem Inv.packElement (h : Inv s) {e : Elem} (hen : s.engine = .packer) (he : Reads s e) (z : Zchar) :
    Inv (Machine.packElement z s) := by
  obtain ⟨-, hout, hcnt, hlen⟩ := h.engineInv hen
  have hidx := lt_length_of_reads he
  obtain hcnt' | hcnt' | hcnt' : s.work.gcnt.val = 0 ∨ s.work.gcnt.val = 1 ∨ s.work.gcnt.val = 2 := by omega
  · rw [packElement_first z (Fin.ext hcnt')]
    refine h.withWork h.alph_ne_three h.phase_ne_three (hen ▸ ⟨hidx, hout, ?_, ?_⟩)
    · show 1 = (s.work.idx + 1) % 3
      omega
    · show s.work.out.length = 2 * ((s.work.idx + 1) / 3)
      omega
  · rw [packElement_second z (Fin.ext hcnt')]
    refine h.withWork h.alph_ne_three h.phase_ne_three (hen ▸ ⟨hidx, hout, ?_, ?_⟩)
    · show 2 = (s.work.idx + 1) % 3
      omega
    · show s.work.out.length = 2 * ((s.work.idx + 1) / 3)
      omega
  · rw [packElement_third z (Fin.ext hcnt')]
    refine h.withWork h.alph_ne_three h.phase_ne_three (hen ▸ ⟨hidx, ?_, ?_, ?_⟩)
    · exact forall_mem_append_map (vs := [_, _]) hout ofByte_lt
    · show 0 = (s.work.idx + 1) % 3
      omega
    · show (s.work.out ++ _).length = 2 * ((s.work.idx + 1) / 3)
      rw [List.length_append, hlen]
      simp only [List.length_cons, List.length_nil]
      omega

/-! ### The end of a stage -/

theorem flushGroup_registers (s : State) :
    (flushGroup s).work.alph = s.work.alph ∧ (flushGroup s).work.phase = s.work.phase := by
  unfold flushGroup
  split
  · exact ⟨rfl, rfl⟩
  · exact ⟨rfl, rfl⟩

/-- The packer's response to what it has packed, the last group included. -/
theorem Inv.respondOk_flushGroup (h : Inv s) : Inv (Machine.respondOk (flushGroup s)) := by
  have halph := h.alph_ne_three
  have hphase := h.phase_ne_three
  obtain ⟨hconfig, -, hgiven, -, -⟩ := h
  obtain ⟨halph', hphase'⟩ := flushGroup_registers s
  obtain ⟨w, hw⟩ := flushGroup_changesWork s
  rw [← halph', hw] at halph
  rw [← hphase', hw] at hphase
  rw [hw]
  exact inv_giveResponse hconfig hgiven ⟨halph, hphase⟩ responseInv_success fun hne => absurd rfl hne

theorem Inv.finishDecoder (h : Inv s) (m : EndMode) : Inv (Machine.finishDecoder m s) := by
  rcases finishDecoder_cases m s with ⟨-, hfin⟩ | ⟨-, -, -, hfin⟩ | ⟨-, -, hfin⟩ <;> rw [hfin]
  · exact h.raise (by decide) (.inl rfl)
  · exact h.raise (by decide) (.inl rfl)
  · exact h.respondOk

theorem Inv.finishStage (h : Inv s) : Inv (Machine.finishStage s) := by
  cases hen : s.engine with
  | idle => rw [Machine.finishStage, hen]; exact h
  | encoder b =>
    cases b with
    | false => rw [Machine.finishStage, hen]; exact h.respondOk
    | true => rw [Machine.finishStage, hen]; exact h.startPacker _
  | decoder m => rw [Machine.finishStage, hen]; exact h.finishDecoder m
  | packer => rw [Machine.finishStage, hen]; exact h.respondOk_flushGroup
  | unpacker b =>
    cases b with
    | false => rw [Machine.finishStage, hen]; exact h.respondOk
    | true => rw [Machine.finishStage, hen]; exact h.startDecoder _ _

/-! ### Every step -/

theorem Inv.step (h : Inv s) : ∃ t, Machine.step s = .next t ∧ Inv t := by
  rcases step_cases s with ⟨-, -, hstep⟩ | ⟨r, rest, -, -, hstep⟩ | ⟨-, -, hstep⟩ | ⟨b, c, hen, hc, -⟩ |
    ⟨m, e, i, hen, he, -, -⟩ | ⟨m, e, hen, he, -, -⟩ | ⟨e, hen, he, hstep⟩ | ⟨b, high, low, hen, hhigh, hlow, -⟩ |
    ⟨b, high, hen, hhigh, hnone, -⟩
  · exact ⟨s, hstep, h⟩
  · rw [hstep]
    exact (h.acceptRequest r rest).command r.cmd
  · exact ⟨_, hstep, h.finishStage⟩
  · exact h.encoderStep hen hc
  · exact h.decoderStep hen he
  · exact h.decoderStep hen he
  · exact ⟨_, hstep, h.packElement hen he _⟩
  · exact h.unpackerStep hen hhigh hlow
  · obtain ⟨-, -, heven, hidx, -⟩ := h.engineInv hen
    have hfirst := lt_length_of_reads hhigh
    have hlast := List.getElem?_eq_none_iff.mp hnone
    omega

end

end Safety

/-- Settles O53: each of a step's cases goes on, and the two that are refused contradict the invariant. -/
theorem noStepStops : Obligations.NoStepStops := by
  intro s h
  obtain ⟨t, hstep, -⟩ := h.step
  exact ⟨t, hstep⟩

/-- Settles O52: the step that the invariant ensures is the step there is, and keeps it. -/
theorem stepKeepsInvariant : Obligations.StepKeepsInvariant := by
  intro s t h hst
  obtain ⟨t', hstep, ht⟩ := h.step
  exact Host.Outcome.next.inj (hstep.symm.trans hst) ▸ ht

/-! ### Reset -/

theorem inv_resetWith (p : Params) : Inv (State.resetWith p) := by
  refine ⟨⟨rfl, rfl, ?_⟩, responseInv_success, by simp [State.resetWith], ⟨by simp [State.resetWith, WorkingState.zero],
    by simp [State.resetWith, WorkingState.zero]⟩, rfl⟩
  exact escapeSlotWarning_eq_decide p.defaultAlphabet

/-- Settles O51: no register of the reset state is 3, and its configuration is that of the default table. -/
theorem resetSatisfiesInvariant : Obligations.ResetSatisfiesInvariant :=
  ⟨inv_resetWith defaultParams, fun p => ⟨inv_resetWith p, rfl, rfl⟩⟩

end Sys2Proof

/-! Single steps, the meanings of the instructions, and reset: the statements of one step or one value. -/

namespace Sys2Proof

open Machine Reference Safety Claims

/-! ### What a step runs -/

/-- Settles O8: the four kinds of word that a step fetches, each with its own lemma. -/
theorem stepRunsDecodedInstruction : Obligations.StepRunsDecodedInstruction := by
  refine fun s i => ⟨?request, ?element, ?zchar, ?word⟩
  case request =>
    intro r rest hidle hr hi
    rw [step_accept hidle hr, (decode_cmd_eq_ok_iff _ _ _).mp hi]
    rfl
  case element =>
    intro b e hen he hi
    rw [step_encoder hen he]
    exact congrArg (exec · s) (Except.ok.inj hi)
  case zchar =>
    intro m e hen he hi
    exact step_decoder hen he hi
  case word =>
    intro b high low hen hhigh hlow hi
    rw [step_unpacker hen hhigh hlow]
    exact congrArg (exec · s) (Except.ok.inj hi)

/-- Settles O9: the fetches that give no word. -/
theorem stepsWithoutInstruction : Obligations.StepsWithoutInstruction := fun _ =>
  ⟨fun ⟨hidle, hr⟩ => step_idle hidle hr, fun _ hen he => step_packer hen he, fun hne hend => step_finish hne hend⟩

/-- A decoder step whose key matches no row is refused. -/
theorem step_decoder_unreachable {s : State} {m : EndMode} {e : Elem} (hen : s.engine = .decoder m) (he : Reads s e)
    (hkey : decodeKey (zcharKey s.work.phase s.work.alph e.toZchar) = .error .unreachableKey) :
    step s = .refused .unreachableKey := by
  rcases step_cases s with ⟨hen', -, -⟩ | ⟨_, _, hen', -, -⟩ | ⟨-, hend, -⟩ | ⟨_, _, hen', -, -⟩ |
    ⟨_, e', i, -, he', hi, -⟩ | ⟨_, _, -, -, -, hstep⟩ | ⟨_, hen', -, -⟩ | ⟨_, _, _, hen', -, -, -⟩ |
    ⟨_, _, hen', -, -, -⟩
  case inr.inr.inr.inr.inr.inl => exact hstep
  case inr.inr.inl =>
    have hlt := lt_length_of_reads he
    omega
  case inr.inr.inr.inr.inl =>
    obtain rfl : e = e' := Option.some.inj (he.symm.trans he')
    cases hkey.symm.trans hi
  all_goals cases hen.symm.trans hen'

/-- Settles O10: no row of the key table matches, and no index of the table is formed. -/
theorem unreachableKeysAreRefused : Obligations.UnreachableKeysAreRefused := by
  refine ⟨fun s m e hen he hkey => step_decoder_unreachable hen he ?key, fun s z h6 => ?literal⟩
  case key =>
    refine (keyRowsPartitionReachableKeys.2 _).mpr ?_
    rw [keyPhase_zcharKey, keyAlph_zcharKey, keyZchar_zcharKey]
    exact hkey
  case literal =>
    have hnone : alphaEntry s.config.alpha (literalIndex 3 z) = none := by
      rw [alphaEntry, Vector.getElem?_eq_none_iff]
      exact Nat.le_of_not_lt (literalIndex_three z h6)
    show execZcLit 3 z s = _
    rw [execZcLit, hnone]

/-! ### The meanings of the instructions -/

/-- Settles O11: each class emits its Z-chars in order and moves the cursor. -/
theorem encoderInstructionsEmit : Obligations.EncoderInstructionsEmit := fun s =>
  ⟨exec_encSpace_emitted s, fun c z => exec_encSc1_emitted c z s, fun c shift z => exec_encSc2_emitted c shift z s,
    fun c => exec_encEsc_emitted c s⟩

/-- Settles O17: the phases, the shifts and space, as their rules have them. -/
theorem decoderInstructionsStep : Obligations.DecoderInstructionsStep := fun s a z =>
  ⟨exec_zcEscHi_stepped a z s, exec_zcEscLo_stepped a z s, exec_zcSpace_stepped a s, exec_zcShiftA1_stepped a s,
    exec_zcShiftA2_stepped a s, exec_zcEscape_stepped s⟩

/-- Settles O18: the index of a literal of a real alphabet lies in the table. -/
theorem literalEmitsTableEntry : Obligations.LiteralEmitsTableEntry := by
  intro s a z _ ha
  have hne : a ≠ 3 := by
    rintro rfl
    exact absurd ha (by decide)
  exact exec_zcLit_stepped hne z s

/-- Settles O25: each command starts its stage and the stage's registers. -/
theorem commandsStartTheirStage : Obligations.CommandsStartTheirStage := by
  intro s
  have started (e : Engine) : Started s (startStage e s.request.data s) e s.request.data :=
    ⟨rfl, rfl, rfl, rfl, rfl, rfl, rfl, rfl, rfl, rfl⟩
  refine ⟨⟨_, rfl, started _⟩, ⟨_, rfl, started _⟩, ⟨_, rfl, started _, rfl, rfl⟩, ⟨_, rfl, started _, rfl⟩,
    fun heven => ?_⟩
  have unpacker (b : Bool) : Started s (startUnpacker b s.request.data s) (.unpacker b) s.request.data ∧
      (startUnpacker b s.request.data s).work.termSeen = false := by
    rw [startUnpacker_even b s heven]
    exact ⟨⟨rfl, rfl, rfl, rfl, rfl, rfl, rfl, rfl, rfl, rfl⟩, rfl⟩
  exact ⟨⟨_, exec_unpack s, unpacker false⟩, ⟨_, exec_decodeZ s, unpacker true⟩⟩

/-! ### Reset -/

/-- The three blocks of a default table, by index (10_state.md R31). -/
theorem fitsBlock_iff (i : Nat) (c : Zscii) :
    fitsBlock i c = true ↔
      (i < 26 → 0x61 ≤ c ∧ c ≤ 0x7A) ∧ (26 ≤ i ∧ i < 52 → 0x41 ≤ c ∧ c ≤ 0x5A) ∧
        (52 ≤ i → c ≤ 0x7F ∧ c ≠ 0x20 ∧ ¬(0x61 ≤ c ∧ c ≤ 0x7A) ∧ ¬(0x41 ≤ c ∧ c ≤ 0x5A)) := by
  unfold fitsBlock
  by_cases h26 : i < 26
  · simp [h26, isLowercase, show ¬ 26 ≤ i by omega, show ¬ 52 ≤ i by omega]
  · by_cases h52 : i < 52
    · simp [h26, h52, isUppercase, show 26 ≤ i by omega, show ¬ 52 ≤ i by omega]
    · simp [h26, h52, isDigitPunctuationControl, isLowercase, isUppercase, zsciiSpace, show 52 ≤ i by omega, and_assoc,
        imp_iff_not_or, BitVec.not_le]

theorem map_alphaEntry_fixed (p : Params) :
    [3, 4, 11, 14, 17, 22, 33, 52, 53, 64, 65].map (alphaEntry p.defaultAlphabet) =
      [0x64, 0x65, 0x6C, 0x6F, 0x72, 0x77, 0x48, 0x00, 0x0D, 0x2E, 0x2C].map some :=
  calc
    _ = fixedEntries.map fun e => alphaEntry p.defaultAlphabet e.1 := rfl
    _ = fixedEntries.map fun e => some e.2 := List.map_congr_left fun _ he => p.fixedEntry he
    _ = _ := rfl

/-- Settles O50: the configuration of reset is that of the default table, which is legal. -/
theorem resetState : Obligations.ResetState := by
  refine ⟨fun p => ⟨rfl, rfl, rfl, p.escapeSlotWarning_default, rfl⟩, fun p => ⟨map_alphaEntry_fixed p, fun i => ?_⟩,
    rfl, rfl, rfl, rfl⟩
  exact (fitsBlock_iff i _).mp (p.fitsBlock i.isLt)

/-- Every command has a meaning in every state. -/
theorem exists_exec_command (b : BitVec 8) (s : State) : ∃ t, exec (decodeCommand b) s = .next t := by
  rcases decodeCommand_cases b with ⟨alt, hi⟩ | hi | hi | hi | hi | hi | hi | hi <;> rw [hi]
  · exact ⟨_, execConfigure_eq_configured alt s⟩
  all_goals exact ⟨_, rfl⟩

/-- Settles O59: reset keeps the port and makes everything else anew; an idle block always has a step. -/
theorem resetAbandonsOperation : Obligations.ResetAbandonsOperation := by
  refine fun s => ⟨rfl, rfl, rfl, rfl, rfl, rfl, ?_⟩
  cases hr : s.requests with
  | nil => exact ⟨_, step_idle rfl hr⟩
  | cons r rest =>
    rw [step_accept (s := s.assertReset) rfl hr]
    exact exists_exec_command r.cmd _

end Sys2Proof
